-- ==== Sys2Proof/Word.lean ====
section
/-! DEFINITION. The widths the hardware works in (spec 00_scope.md R7: every value is unsigned, bit 0 is
the least significant bit). -/

namespace Sys2Proof

/-- A register or memory cell: 8 bits (10_state.md R10, R25). -/
abbrev Byte := BitVec 8

/-- An instruction word, `PC`, `I` or a return address: 16 bits (R15, R16, R18, R60). -/
abbrev Word := BitVec 16

/-- One nibble: a register index, a sprite height or a key number (30_encoding.md R61). -/
abbrev Nibble := BitVec 4

/-- The 12-bit address immediate `NNN` (30_encoding.md R61). -/
abbrev Addr12 := BitVec 12

end Sys2Proof
end

