-- ==== Sys2Proof/Config.lean ====
section
/-! DEFINITION. What an implementation fixes (spec 00_scope.md R4) and the free inputs of the machine
(45_engine.md R152 to R154). -/

namespace Sys2Proof

namespace Config

/-- `MEM_SIZE`, fixed (00_scope.md R4). -/
def memSize : Nat := 4096

/-- `PROG_START`, fixed: the reset value of `PC` and the first byte of a ROM (R4). -/
def progStart : Word := 0x0200

/-- The bytes of the program region 0x200 to 0xFFF (20_memory.md R46). -/
def progSize : Nat := 3584

/-- `FONT_GLYPH_BYTES`, fixed: `LD F,Vx` multiplies by it (R4, 42_index_memory.md R122). -/
def glyphBytes : Nat := 5

/-- The 80 bytes of the default font (20_memory.md R47; the spec marks the table as general knowledge,
log 10). Digit `d` is the five bytes at `5 * d`. -/
def defaultFont : Vector Byte 80 :=
  ⟨⟨[0xF0, 0x90, 0x90, 0x90, 0xF0] ++ [0x20, 0x60, 0x20, 0x20, 0x70]
    ++ [0xF0, 0x10, 0xF0, 0x80, 0xF0] ++ [0xF0, 0x10, 0xF0, 0x10, 0xF0]
    ++ [0x90, 0x90, 0xF0, 0x10, 0x10] ++ [0xF0, 0x80, 0xF0, 0x10, 0xF0]
    ++ [0xF0, 0x80, 0xF0, 0x90, 0xF0] ++ [0xF0, 0x10, 0x20, 0x40, 0x40]
    ++ [0xF0, 0x90, 0xF0, 0x90, 0xF0] ++ [0xF0, 0x90, 0xF0, 0x10, 0xF0]
    ++ [0xF0, 0x90, 0xF0, 0x90, 0x90] ++ [0xE0, 0x90, 0xE0, 0x90, 0xE0]
    ++ [0xF0, 0x80, 0x80, 0x80, 0xF0] ++ [0xE0, 0x90, 0x90, 0x90, 0xE0]
    ++ [0xF0, 0x80, 0xF0, 0x80, 0xF0] ++ [0xF0, 0x80, 0xF0, 0x80, 0x80]⟩, rfl⟩

/-- `MNEMONIC[0..34]`, the default strings in table order (30_encoding.md R66, R72). -/
def mnemonics : Vector String 35 :=
  ⟨⟨["???", "CLS", "RET", "JMP NNN", "CALL NNN", "SE Vx,NN", "SNE Vx,NN", "SE Vx,Vy", "LD Vx,NN",
      "ADD Vx,NN"]
    ++ ["LD Vx,Vy", "OR Vx,Vy", "AND Vx,Vy", "XOR Vx,Vy", "ADD Vx,Vy", "SUB Vx,Vy", "SHR Vx,Vy",
      "SUBN Vx,Vy", "SHL Vx,Vy", "SNE Vx,Vy"]
    ++ ["LD I,NNN", "JMP V0,NNN", "RND Vx,NN", "DRW Vx,Vy,N", "SKP Vx", "SKNP Vx"]
    ++ ["LD Vx,DT", "LD Vx,K", "LD DT,Vx", "LD ST,Vx", "ADD I,Vx", "LD F,Vx", "LD B,Vx", "LD [I],Vx",
      "LD Vx,[I]"]⟩, rfl⟩

/-- One sample of the key-wait port: `valid` is `kw_valid`, `key` is `kw_key`, meaningful only when
`valid` (45_engine.md R153). -/
structure KeySample where
  valid : Bool
  key : Nibble
deriving DecidableEq, Repr, Inhabited

/-- FREE VALUE (log 2). The `n`-th byte on the random port `rnd` (45_engine.md R154: a free input,
under no law). Nothing constrains it. -/
opaque rnd : Nat → Byte

/-- FREE VALUE (log 3). The `n`-th sample of the key-wait port (45_engine.md R153: a free input, under
no law, unrelated to the key vector). Nothing constrains it. -/
opaque keyWait : Nat → KeySample

/-- FREE VALUE (log 4). The key vector `keys_in` the host drives at the `n`-th tick (45_engine.md R152).
Nothing constrains it. -/
opaque keysIn : Nat → BitVec 16

end Config

/-- The parameters of 00_scope.md R4 that have a default and not a fixed value (log 5). `MNEMONIC` is an
argument of the disassembler instead; `TICK_HZ` is open and no rule depends on it. -/
structure Params where
  ipt : Nat
  stackDepth : Nat
  font : Vector Byte 80
deriving DecidableEq, Repr

/-- The defaults of 00_scope.md R4: `IPT` = 6, `STACK_DEPTH` = 16, the conventional font. -/
def Params.default : Params := { ipt := 6, stackDepth := 16, font := Config.defaultFont }

end Sys2Proof
end

