-- ==== Sys2Proof/Syntax.lean ====
section
/-! DEFINITION. The instructions: one constructor per row of spec/opcode_table.json (30_encoding.md R66),
with the operand fields its pattern names (R61). A nibble the decoder does not examine (R65) and the whole
of an unknown word (R67) are kept as fields, so that an instruction determines its word (log 16). -/

namespace Sys2Proof

/-- The 34 instructions and the unknown entry of the opcode table (30_encoding.md R66). -/
inductive Instr where
  /-- 00E0 `CLS` -/
  | cls
  /-- 00EE `RET` -/
  | ret
  /-- 1NNN `JMP NNN` -/
  | jmp (nnn : Addr12)
  /-- 2NNN `CALL NNN` -/
  | call (nnn : Addr12)
  /-- 3XNN `SE Vx,NN` -/
  | seImm (x : Nibble) (nn : Byte)
  /-- 4XNN `SNE Vx,NN` -/
  | sneImm (x : Nibble) (nn : Byte)
  /-- 5XY? `SE Vx,Vy`; `k` is the low nibble, which nothing examines (R65) -/
  | seReg (x y k : Nibble)
  /-- 6XNN `LD Vx,NN` -/
  | ldImm (x : Nibble) (nn : Byte)
  /-- 7XNN `ADD Vx,NN` -/
  | addImm (x : Nibble) (nn : Byte)
  /-- 8XY0 `LD Vx,Vy` -/
  | ldReg (x y : Nibble)
  /-- 8XY1 `OR Vx,Vy` -/
  | orReg (x y : Nibble)
  /-- 8XY2 `AND Vx,Vy` -/
  | andReg (x y : Nibble)
  /-- 8XY3 `XOR Vx,Vy` -/
  | xorReg (x y : Nibble)
  /-- 8XY4 `ADD Vx,Vy` -/
  | addReg (x y : Nibble)
  /-- 8XY5 `SUB Vx,Vy` -/
  | subReg (x y : Nibble)
  /-- 8XY6 `SHR Vx,Vy` -/
  | shr (x y : Nibble)
  /-- 8XY7 `SUBN Vx,Vy` -/
  | subn (x y : Nibble)
  /-- 8XYE `SHL Vx,Vy` -/
  | shl (x y : Nibble)
  /-- 9XY? `SNE Vx,Vy`; `k` is the low nibble, which nothing examines (R65) -/
  | sneReg (x y k : Nibble)
  /-- ANNN `LD I,NNN` -/
  | ldI (nnn : Addr12)
  /-- BNNN `JMP V0,NNN` -/
  | jmpV0 (nnn : Addr12)
  /-- CXNN `RND Vx,NN` -/
  | rnd (x : Nibble) (nn : Byte)
  /-- DXYN `DRW Vx,Vy,N` -/
  | drw (x y n : Nibble)
  /-- EX9E `SKP Vx` -/
  | skp (x : Nibble)
  /-- EXA1 `SKNP Vx` -/
  | sknp (x : Nibble)
  /-- FX07 `LD Vx,DT` -/
  | ldVxDT (x : Nibble)
  /-- FX0A `LD Vx,K` -/
  | ldVxK (x : Nibble)
  /-- FX15 `LD DT,Vx` -/
  | ldDTVx (x : Nibble)
  /-- FX18 `LD ST,Vx` -/
  | ldSTVx (x : Nibble)
  /-- FX1E `ADD I,Vx` -/
  | addI (x : Nibble)
  /-- FX29 `LD F,Vx` -/
  | ldF (x : Nibble)
  /-- FX33 `LD B,Vx` -/
  | ldB (x : Nibble)
  /-- FX55 `LD [I],Vx` -/
  | store (x : Nibble)
  /-- FX65 `LD Vx,[I]` -/
  | load (x : Nibble)
  /-- `???`: every other word (R67); `w` is the word itself -/
  | unknown (w : Word)
deriving DecidableEq, Repr

end Sys2Proof
end

