-- ==== Sys2Proof/WellFormed.lean ====
section
/-! DEFINITION. Which terms of Instr stand for a word of the hardware. Every operand field admits every
value of its width (30_encoding.md R61, R62), so the only check is on the unknown entry: its word must be one
that 30_encoding.md R67 lists. It is written from R67's list, not from the decoder. -/

namespace Sys2Proof

/-- The words R67 lists, family by family: 0x0000 to 0x0FFF but 00E0 and 00EE; 8XYk with k in 8, 9, A, B, C,
D, F; EXkk but 9E and A1; FXkk but the nine trailing bytes of the table. -/
def unknownWord (w : Word) : Bool :=
  let n := w.toNat
  (n < 0x1000 && n != 0x00E0 && n != 0x00EE)
  || (n / 0x1000 == 0x8 && [0x8, 0x9, 0xA, 0xB, 0xC, 0xD, 0xF].elem (n % 16))
  || (n / 0x1000 == 0xE && !([0x9E, 0xA1].elem (n % 256)))
  || (n / 0x1000 == 0xF && !([0x07, 0x0A, 0x15, 0x18, 0x1E, 0x29, 0x33, 0x55, 0x65].elem (n % 256)))

/-- An instruction is well formed when some word decodes to it: every instruction row is; the unknown entry
is when its word belongs to no other row (R67). -/
def Instr.wellFormed : Instr → Bool
  | .unknown w => unknownWord w
  | _ => true

end Sys2Proof
end

