-- ==== Sys2Proof/Decode.lean ====
section
/-! DEFINITION. The decoder (spec 30_encoding.md R61 to R67), an encoder written from the same patterns, the
opcode table with its match and mask columns (R66), and the reading of an instruction from bytes (R43, R60). -/

namespace Sys2Proof

/-! ## The fields of an instruction word (R61) -/

/-- `OP = w[15:12]`. -/
def opOf (w : Word) : Nibble := w.extractLsb' 12 4
/-- `X = w[11:8]`. -/
def xOf (w : Word) : Nibble := w.extractLsb' 8 4
/-- `Y = w[7:4]`. -/
def yOf (w : Word) : Nibble := w.extractLsb' 4 4
/-- `N = w[3:0]`. -/
def nOf (w : Word) : Nibble := w.extractLsb' 0 4
/-- `NN = w[7:0]`. -/
def nnOf (w : Word) : Byte := w.extractLsb' 0 8
/-- `NNN = w[11:0]`. -/
def nnnOf (w : Word) : Addr12 := w.extractLsb' 0 12

/-! ## The decoder (R64) -/

/-- Family 0: two known forms, the whole word must match. -/
def decode0 (w : Word) : Instr :=
  if w = 0x00E0 then .cls
  else if w = 0x00EE then .ret
  else .unknown w

/-- Family 8: the trailing nibble selects among nine operations. -/
def decode8 (w : Word) : Instr :=
  let x := xOf w
  let y := yOf w
  let n := nOf w
  if n = 0x0 then .ldReg x y
  else if n = 0x1 then .orReg x y
  else if n = 0x2 then .andReg x y
  else if n = 0x3 then .xorReg x y
  else if n = 0x4 then .addReg x y
  else if n = 0x5 then .subReg x y
  else if n = 0x6 then .shr x y
  else if n = 0x7 then .subn x y
  else if n = 0xE then .shl x y
  else .unknown w

/-- Family E: the trailing byte selects the key skip. -/
def decodeE (w : Word) : Instr :=
  if nnOf w = 0x9E then .skp (xOf w)
  else if nnOf w = 0xA1 then .sknp (xOf w)
  else .unknown w

/-- Family F: the trailing byte selects among nine operations. -/
def decodeF (w : Word) : Instr :=
  let x := xOf w
  let nn := nnOf w
  if nn = 0x07 then .ldVxDT x
  else if nn = 0x0A then .ldVxK x
  else if nn = 0x15 then .ldDTVx x
  else if nn = 0x18 then .ldSTVx x
  else if nn = 0x1E then .addI x
  else if nn = 0x29 then .ldF x
  else if nn = 0x33 then .ldB x
  else if nn = 0x55 then .store x
  else if nn = 0x65 then .load x
  else .unknown w

/-- `Decode(w)` of R64: total, and a function of the word alone (R63). The low nibble of families 5 and 9 is
not examined (R65; family 9 is the spec's decision D9, log 13). -/
def decode (w : Word) : Instr :=
  let op := opOf w
  if op = 0x0 then decode0 w
  else if op = 0x1 then .jmp (nnnOf w)
  else if op = 0x2 then .call (nnnOf w)
  else if op = 0x3 then .seImm (xOf w) (nnOf w)
  else if op = 0x4 then .sneImm (xOf w) (nnOf w)
  else if op = 0x5 then .seReg (xOf w) (yOf w) (nOf w)
  else if op = 0x6 then .ldImm (xOf w) (nnOf w)
  else if op = 0x7 then .addImm (xOf w) (nnOf w)
  else if op = 0x8 then decode8 w
  else if op = 0x9 then .sneReg (xOf w) (yOf w) (nOf w)
  else if op = 0xA then .ldI (nnnOf w)
  else if op = 0xB then .jmpV0 (nnnOf w)
  else if op = 0xC then .rnd (xOf w) (nnOf w)
  else if op = 0xD then .drw (xOf w) (yOf w) (nOf w)
  else if op = 0xE then decodeE w
  else decodeF w

/-! ## Reading an instruction from bytes (R43, R60) -/

/-- Why a sequence of bytes holds no instruction. Every word decodes (R63), so the only reason is a sequence
shorter than the two bytes of R60. -/
inductive DecodeError where
  /-- Raised by `decodeBytes` on fewer than two bytes. Safe: no instruction is invented. -/
  | truncated
deriving DecidableEq, Repr

/-- The word of two bytes, the byte at the lower address first: big-endian (20_memory.md R43). -/
def wordOfBytes (hi lo : Byte) : Word := hi ++ lo

/-- The instruction at the head of a sequence of bytes, with the rest of the sequence. -/
def decodeBytes : List Byte → Except DecodeError (Instr × List Byte)
  | hi :: lo :: rest => .ok (decode (wordOfBytes hi lo), rest)
  | _ => .error .truncated

/-- The high and the low byte of a word, in the order memory holds them (R43). -/
def bytesOfWord (w : Word) : List Byte := [w.extractLsb' 8 8, w.extractLsb' 0 8]

/-- The instruction the decoder reads from a word whose bits are `w`, of which the table gives the low
`nbits`; the bits above are 0. -/
def decodeTableWord (nbits w : Nat) : Option Instr :=
  match decodeBytes (bytesOfWord (BitVec.ofNat 16 (w % 2 ^ nbits))) with
  | .ok (i, _) => some i
  | .error _ => none

/-! ## The encoder (R61, R66) -/

/-- Format `NNN`: `OP, NNN` (R61). -/
def fmtNNN (op : Nibble) (nnn : Addr12) : Word := op ++ nnn

/-- Formats `XNN` and `Xkk`: `OP, X, NN` (R61). -/
def fmtXNN (op x : Nibble) (nn : Byte) : Word := op ++ x ++ nn

/-- Formats `XY`, `XYk` and `XYN`: `OP, X, Y, N` (R61). -/
def fmtXYN (op x y n : Nibble) : Word := op ++ x ++ y ++ n

/-- The word of an instruction, written from the patterns of R66. -/
def encode : Instr → Word
  | .cls => 0x00E0
  | .ret => 0x00EE
  | .jmp nnn => fmtNNN 0x1#4 nnn
  | .call nnn => fmtNNN 0x2#4 nnn
  | .seImm x nn => fmtXNN 0x3#4 x nn
  | .sneImm x nn => fmtXNN 0x4#4 x nn
  | .seReg x y k => fmtXYN 0x5#4 x y k
  | .ldImm x nn => fmtXNN 0x6#4 x nn
  | .addImm x nn => fmtXNN 0x7#4 x nn
  | .ldReg x y => fmtXYN 0x8#4 x y 0x0#4
  | .orReg x y => fmtXYN 0x8#4 x y 0x1#4
  | .andReg x y => fmtXYN 0x8#4 x y 0x2#4
  | .xorReg x y => fmtXYN 0x8#4 x y 0x3#4
  | .addReg x y => fmtXYN 0x8#4 x y 0x4#4
  | .subReg x y => fmtXYN 0x8#4 x y 0x5#4
  | .shr x y => fmtXYN 0x8#4 x y 0x6#4
  | .subn x y => fmtXYN 0x8#4 x y 0x7#4
  | .shl x y => fmtXYN 0x8#4 x y 0xE#4
  | .sneReg x y k => fmtXYN 0x9#4 x y k
  | .ldI nnn => fmtNNN 0xA#4 nnn
  | .jmpV0 nnn => fmtNNN 0xB#4 nnn
  | .rnd x nn => fmtXNN 0xC#4 x nn
  | .drw x y n => fmtXYN 0xD#4 x y n
  | .skp x => fmtXNN 0xE#4 x 0x9E#8
  | .sknp x => fmtXNN 0xE#4 x 0xA1#8
  | .ldVxDT x => fmtXNN 0xF#4 x 0x07#8
  | .ldVxK x => fmtXNN 0xF#4 x 0x0A#8
  | .ldDTVx x => fmtXNN 0xF#4 x 0x15#8
  | .ldSTVx x => fmtXNN 0xF#4 x 0x18#8
  | .addI x => fmtXNN 0xF#4 x 0x1E#8
  | .ldF x => fmtXNN 0xF#4 x 0x29#8
  | .ldB x => fmtXNN 0xF#4 x 0x33#8
  | .store x => fmtXNN 0xF#4 x 0x55#8
  | .load x => fmtXNN 0xF#4 x 0x65#8
  | .unknown w => w

/-! ## The opcode table (R66) -/

/-- The position of an instruction's entry in the opcode table (R66). -/
def tableIndex : Instr → Fin 35
  | .unknown _ => 0
  | .cls => 1
  | .ret => 2
  | .jmp _ => 3
  | .call _ => 4
  | .seImm _ _ => 5
  | .sneImm _ _ => 6
  | .seReg _ _ _ => 7
  | .ldImm _ _ => 8
  | .addImm _ _ => 9
  | .ldReg _ _ => 10
  | .orReg _ _ => 11
  | .andReg _ _ => 12
  | .xorReg _ _ => 13
  | .addReg _ _ => 14
  | .subReg _ _ => 15
  | .shr _ _ => 16
  | .subn _ _ => 17
  | .shl _ _ => 18
  | .sneReg _ _ _ => 19
  | .ldI _ => 20
  | .jmpV0 _ => 21
  | .rnd _ _ => 22
  | .drw _ _ _ => 23
  | .skp _ => 24
  | .sknp _ => 25
  | .ldVxDT _ => 26
  | .ldVxK _ => 27
  | .ldDTVx _ => 28
  | .ldSTVx _ => 29
  | .addI _ => 30
  | .ldF _ => 31
  | .ldB _ => 32
  | .store _ => 33
  | .load _ => 34

/-- A row of the table of R66: its index, its match and its mask. -/
structure TableRow where
  index : Nat
  pattern : Word
  mask : Word
deriving DecidableEq, Repr

/-- A word matches a row when `(w & mask) = match` (R66). -/
def TableRow.accepts (r : TableRow) (w : Word) : Bool := w &&& r.mask == r.pattern

/-- Rows 1 to 34 of the table of R66, in its order; row 0 is the fallback and has no pattern. -/
def opcodeRows : List TableRow :=
  [⟨1, 0x00E0, 0xFFFF⟩, ⟨2, 0x00EE, 0xFFFF⟩, ⟨3, 0x1000, 0xF000⟩, ⟨4, 0x2000, 0xF000⟩,
    ⟨5, 0x3000, 0xF000⟩, ⟨6, 0x4000, 0xF000⟩, ⟨7, 0x5000, 0xF000⟩, ⟨8, 0x6000, 0xF000⟩,
    ⟨9, 0x7000, 0xF000⟩]
  ++ [⟨10, 0x8000, 0xF00F⟩, ⟨11, 0x8001, 0xF00F⟩, ⟨12, 0x8002, 0xF00F⟩, ⟨13, 0x8003, 0xF00F⟩,
    ⟨14, 0x8004, 0xF00F⟩, ⟨15, 0x8005, 0xF00F⟩, ⟨16, 0x8006, 0xF00F⟩, ⟨17, 0x8007, 0xF00F⟩,
    ⟨18, 0x800E, 0xF00F⟩]
  ++ [⟨19, 0x9000, 0xF000⟩, ⟨20, 0xA000, 0xF000⟩, ⟨21, 0xB000, 0xF000⟩, ⟨22, 0xC000, 0xF000⟩,
    ⟨23, 0xD000, 0xF000⟩, ⟨24, 0xE09E, 0xF0FF⟩, ⟨25, 0xE0A1, 0xF0FF⟩]
  ++ [⟨26, 0xF007, 0xF0FF⟩, ⟨27, 0xF00A, 0xF0FF⟩, ⟨28, 0xF015, 0xF0FF⟩, ⟨29, 0xF018, 0xF0FF⟩,
    ⟨30, 0xF01E, 0xF0FF⟩, ⟨31, 0xF029, 0xF0FF⟩, ⟨32, 0xF033, 0xF0FF⟩, ⟨33, 0xF055, 0xF0FF⟩,
    ⟨34, 0xF065, 0xF0FF⟩]

/-- The index of the row a word matches, and 0 (the fallback) when it matches none (R66). -/
def tableLookup (w : Word) : Nat :=
  match opcodeRows.find? (fun r => r.accepts w) with
  | some r => r.index
  | none => 0

end Sys2Proof
end

