-- ==== Sys2Proof/Machine/State.lean ====
section
/-! DEFINITION. The state of the machine (spec 10_state.md), its power-on and reset values (R31, R32, R210),
and the reasons a step can stop. Plain data: no field holds a function. -/

namespace Sys2Proof.Machine

/-- The faults of the hardware (60_exceptions.md R181). They name the cause held in the `FAULT` register.
The spec describes how a fault is entered (R183), so an instruction that raises one answers a NEXT state
with `FAULT` written, and the outcome `fault` of a step is never used (log 6). Safe: every fault the spec
names is visible in the state, and nothing runs after it. -/
inductive Fault where
  /-- Code 1. Raised by 00EE when `SP = 0` (R81). Safe: recorded in `FAULT`. -/
  | stackUnderflow
  /-- Code 2. Raised by 2NNN when `SP = STACK_DEPTH` (R83). Safe: recorded in `FAULT`. -/
  | stackOverflow
  /-- Code 3. Raised by the fetch of any step when `PC > 0x0FFE` (R159). Safe: recorded in `FAULT`. -/
  | fetchOutOfRange
  /-- Code 4. Raised by DXYN, FX33, FX55 and FX65 when a byte of the access lies above 0x0FFF (R119, R131).
  Safe: recorded in `FAULT`. -/
  | memOutOfRange
  /-- Code 5. Raised by EX9E and EXA1 when `V[X] > 15` (R140, R141). Safe: recorded in `FAULT`. -/
  | keyIndexOutOfRange
deriving DecidableEq, Repr

/-- The reasons for which a step could have no meaning. -/
inductive Refusal where
  /-- Raised by an arm of `exec` whose instruction has no meaning yet; no arm of this model does. Safe: the
  step stops where the hardware goes on. -/
  | notModelled (mnemonic : String)
deriving DecidableEq, Repr

/-- The record the `FAULT` register holds (10_state.md R24): `cause` stands for its code (`Fault.code`), and
`info` is the value of R181's fifth column, a natural number, 0 where the column says none (log 19). -/
structure FaultRecord where
  cause : Fault
  pc : Word
  ir : Word
  info : Nat
deriving DecidableEq, Repr

/-- `STACK[0..STACK_DEPTH-1]` with `SP` (10_state.md R18, R19), held so that no ill-formed stack exists
(log 8): `live` is the valid entries, newest first (`STACK[SP-1]` down to `STACK[0]`), `dead` the entries that
are not valid (`STACK[SP]` up to `STACK[STACK_DEPTH-1]`), which keep their old bits. -/
structure CallStack where
  live : List Word
  dead : List Word
deriving DecidableEq, Repr

/-- `DISP`: 32 rows, row 0 the top, of 64 one-bit pixels, column 0 the left (R21). -/
abbrev Display := Vector (Vector Bool 64) 32

/-- The bytes of memory that differ from what an unlisted address reads as, addresses strictly rising. -/
abbrev Memory := List Host.Cell

/-- The machine's state. The comment of a field names its rule in 10_state.md; the fields from `font` on are
the machine's parameters (00_scope.md R4, log 5) and the model's own bookkeeping. -/
structure State where
  /-- `V[0..15]`, VF being `V[15]` (R10, R13) -/
  v : Vector Byte 16
  /-- `I` (R15) -/
  i : Word
  /-- `PC` (R16) -/
  pc : Word
  /-- `STACK` and `SP` (R18) -/
  stack : CallStack
  /-- `DT` (R20) -/
  dt : Byte
  /-- `ST` (R20) -/
  st : Byte
  /-- `DISP` (R21) -/
  disp : Display
  /-- `KEYS`, bit `k` for logical key `k` (R22) -/
  keys : BitVec 16
  /-- `IR` (R23) -/
  ir : Word
  /-- `FAULT` (R24) -/
  fault : Option FaultRecord
  /-- `MEM` (R25) -/
  mem : Memory
  /-- parameter `FONT` (20_memory.md R47); no step writes it -/
  font : Vector Byte 80
  /-- parameter `IPT` (45_engine.md R162); no step writes it -/
  ipt : Nat
  /-- the model's own: the instruction slots of the open tick that are left (log 1) -/
  slotsLeft : Nat
  /-- the model's own: the value last driven on the output port `audio_trigger` (45_engine.md R155, log 7) -/
  audio : Bool
  /-- the model's own: the number of ticks opened, the index of the next `keys_in` (log 4) -/
  tickNo : Nat
  /-- the model's own: the number of random bytes drawn, the index of the next (log 2) -/
  rndNo : Nat
  /-- the model's own: the number of key-wait samples drawn, the index of the next (log 3) -/
  kwNo : Nat
deriving DecidableEq, Repr

/-- The state after `power_on` of a machine with the given parameters (70_reset_and_hazards.md R210;
10_state.md R31, R32): nothing is listed in memory, since an unlisted byte reads as the font or as 0. -/
def State.powerOn (p : Params) : State where
  v := .replicate 16 0
  i := 0
  pc := Config.progStart
  stack := { live := [], dead := List.replicate p.stackDepth 0 }
  dt := 0
  st := 0
  disp := .replicate 32 (.replicate 64 false)
  keys := 0
  ir := 0
  fault := none
  mem := []
  font := p.font
  ipt := p.ipt
  slotsLeft := 0
  audio := false
  tickNo := 0
  rndNo := 0
  kwNo := 0

/-- The machine right after reset, with the default parameters (R31, R32, R210). -/
def State.reset : State := State.powerOn Params.default

end Sys2Proof.Machine
end

