-- ==== Sys2Proof/Machine/Ops.lean ====
section
/-! DEFINITION. The named operations over memory, registers, the call stack and the display, and the taking of
a fault (spec 10_state.md, 20_memory.md, 43_display.md R131, 60_exceptions.md R183). -/

namespace Sys2Proof.Machine

/-! ## Memory (20_memory.md) -/

/-- What an address that memory does not list reads as: the font below 0x050, 0 elsewhere (R32, R210). -/
def Memory.unlisted (font : Vector Byte 80) (a : Nat) : Byte :=
  if h : a < 80 then font[a] else 0

/-- The value listed at an address. -/
def Memory.find : Memory → Nat → Option Byte
  | [], _ => none
  | (k, b) :: rest, a => if k = a then some b else Memory.find rest a

/-- The byte at an address, `bg` being what an unlisted address reads as. -/
def Memory.read (bg : Nat → Byte) (m : Memory) (a : Nat) : Byte :=
  (Memory.find m a).getD (bg a)

/-- List a byte at an address, in order, in place of what was listed there. -/
def Memory.put : Memory → Nat → Byte → Memory
  | [], a, b => [(a, b)]
  | (k, c) :: rest, a, b =>
    if a < k then (a, b) :: (k, c) :: rest
    else if a = k then (a, b) :: rest
    else (k, c) :: Memory.put rest a b

/-- List nothing at an address. -/
def Memory.drop (m : Memory) (a : Nat) : Memory := m.filter (fun c => c.1 != a)

/-- Write a byte, keeping the canonical form: writing what the address reads as unlisted lists nothing. -/
def Memory.write (bg : Nat → Byte) (m : Memory) (a : Nat) (b : Byte) : Memory :=
  if b = bg a then Memory.drop m a else Memory.put m a b

/-- The canonical form: addresses strictly rising and inside the 4096 bytes (R40), and no entry equal to what
the address reads as unlisted. -/
abbrev Memory.wf (bg : Nat → Byte) (m : Memory) : Prop :=
  m.Pairwise (fun p q => p.1 < q.1) ∧ ∀ c ∈ m, c.1 < Config.memSize ∧ c.2 ≠ bg c.1

/-- `MEM[a]` (R42), for an address inside the 4096 bytes. Every instruction checks its range first (log 9). -/
def State.memRead (s : State) (a : Nat) : Byte := Memory.read (Memory.unlisted s.font) s.mem a

/-- Replace the memory. -/
def State.setMem (s : State) (m : Memory) : State := { s with mem := m }

/-- `MEM[a] <- b` (R44), for an address inside the 4096 bytes. -/
def State.memWrite (s : State) (a : Nat) (b : Byte) : State :=
  s.setMem (Memory.write (Memory.unlisted s.font) s.mem a b)

/-- Write a sequence of bytes from an address on, the first at the lowest address. -/
def State.memWriteList (s : State) (a : Nat) : List Byte → State
  | [] => s
  | b :: rest => State.memWriteList (s.memWrite a b) (a + 1) rest

/-! ## Registers (10_state.md) -/

/-- `V[x]` (R10). -/
def State.reg (s : State) (x : Nibble) : Byte := s.v[x.toNat]'x.isLt

/-- `V[x] <- b` (R10: no register is hardwired). -/
def State.setReg (s : State) (x : Nibble) (b : Byte) : State :=
  { s with v := s.v.set x.toNat b x.isLt }

/-- `I <- w` (R15: never masked). -/
def State.setIndex (s : State) (w : Word) : State := { s with i := w }

/-- `PC <- w` (R16). -/
def State.setPc (s : State) (w : Word) : State := { s with pc := w }

/-- `DT <- b` (R20). -/
def State.setDelay (s : State) (b : Byte) : State := { s with dt := b }

/-- `ST <- b` (R20). -/
def State.setSound (s : State) (b : Byte) : State := { s with st := b }

/-- Replace the call stack (R18). -/
def State.setStack (s : State) (k : CallStack) : State := { s with stack := k }

/-- Replace the display (R21). -/
def State.setDisplay (s : State) (d : Display) : State := { s with disp := d }

/-- Whether logical key `k` is held in the tick's snapshot: `KEYS[k]` (R22). -/
def State.keyHeld (s : State) (k : Nat) : Bool := s.keys.getLsbD k

/-- A conditional skip: `PC <- PC + 2`, mod 65536, when the condition holds (40_flow.md R88). -/
def State.skipIf (s : State) (c : Bool) : State := s.setPc (if c then s.pc + 2 else s.pc)

/-- One random byte is drawn (45_engine.md R154). -/
def State.drawRnd (s : State) : State := { s with rndNo := s.rndNo + 1 }

/-- One key-wait sample is drawn (45_engine.md R153). -/
def State.drawKeyWait (s : State) : State := { s with kwNo := s.kwNo + 1 }

/-! ## The call stack (10_state.md R18, R19) -/

/-- `SP`: the number of valid entries. -/
def CallStack.sp (k : CallStack) : Nat := k.live.length

/-- `STACK[0..STACK_DEPTH-1]`, entry 0 first, the entries that are not valid included. -/
def CallStack.entries (k : CallStack) : List Word := k.live.reverse ++ k.dead

/-- `STACK_DEPTH`. -/
def CallStack.depth (k : CallStack) : Nat := k.live.length + k.dead.length

/-- A stack of the given depth with no valid entry and every entry 0 (R31). -/
def CallStack.fresh (depth : Nat) : CallStack := { live := [], dead := List.replicate depth 0 }

/-- `Push(a)`: none when `SP = STACK_DEPTH`, else `STACK[SP] <- a; SP <- SP + 1` (R18). -/
def CallStack.push (k : CallStack) (a : Word) : Option CallStack :=
  match k.dead with
  | [] => none
  | _ :: rest => some { live := a :: k.live, dead := rest }

/-- `Pop()`: none when `SP = 0`, else `SP <- SP - 1` and the result is `STACK[SP]`, which keeps its bits
(R19). -/
def CallStack.pop (k : CallStack) : Option (Word × CallStack) :=
  match k.live with
  | [] => none
  | a :: rest => some (a, { live := rest, dead := a :: k.dead })

/-! ## The display (10_state.md R21, 43_display.md R131 to R133) -/

/-- `DISP[y][x]`. -/
def Display.pixel (d : Display) (y x : Nat) : Bool :=
  if h : y < 32 ∧ x < 64 then (d[y]'h.1)[x]'h.2 else false

/-- `DISP[y][x] <- DISP[y][x] ^ 1`. -/
def Display.toggle (d : Display) (y x : Nat) : Display :=
  if h : y < 32 ∧ x < 64 then d.set y ((d[y]'h.1).set x (!((d[y]'h.1)[x]'h.2)) h.2) h.1 else d

/-- Every pixel 0 (R130). -/
def Display.clear : Display := .replicate 32 (.replicate 64 false)

/-- A draw in progress: the display and `hit`, whether a pixel has been turned off (R131). -/
structure Canvas where
  disp : Display
  hit : Bool
deriving DecidableEq, Repr

/-- One sprite bit set to 1 at row `y`, column `x`: a lit pixel is a collision, and the pixel toggles. -/
def Canvas.plot (c : Canvas) (y x : Nat) : Canvas :=
  { disp := Display.toggle c.disp y x, hit := c.hit || Display.pixel c.disp y x }

/-- Columns `col`, `col + 1`, ... of one sprite row `b`, `n` of them: column `c` is bit `7 - c` and lands at
`x0 + c`; past column 63 the rest of the row is dropped (R131, R132, R133). -/
def Canvas.drawRow (b : Byte) (y x0 : Nat) : Nat → Nat → Canvas → Canvas
  | 0, _, c => c
  | n + 1, col, c =>
    if 63 < x0 + col then c
    else Canvas.drawRow b y x0 n (col + 1) (if b.getLsbD (7 - col) then c.plot y (x0 + col) else c)

/-- Rows `r`, `r + 1`, ... of a sprite, `n` of them: row `r` lands at `y0 + r`; past row 31 the rest of the
sprite is dropped (R131, R132). -/
def Canvas.drawRows (sprite : Nat → Byte) (x0 y0 : Nat) : Nat → Nat → Canvas → Canvas
  | 0, _, c => c
  | n + 1, r, c =>
    if 31 < y0 + r then c
    else Canvas.drawRows sprite x0 y0 n (r + 1) (Canvas.drawRow (sprite r) (y0 + r) x0 8 0 c)

/-! ## Taking a fault (60_exceptions.md R183)

There is no return from a fault and no handler (R187): `reset`, `load_rom` and `power_on` alone leave the
faulted state (Machine/HostEvents.lean). -/

/-- The code of a cause: the first column of R181, by which `FAULT` names it (10_state.md R24). -/
def Fault.code : Fault → Nat
  | .stackUnderflow => 1
  | .stackOverflow => 2
  | .fetchOutOfRange => 3
  | .memOutOfRange => 4
  | .keyIndexOutOfRange => 5

/-- `FAULT <- r`, and the tick ends: its remaining slots are not run (R183, 45_engine.md R157). -/
def State.enterFault (s : State) (r : FaultRecord) : State := { s with fault := some r, slotsLeft := 0 }

/-- `raise <cause>(info)` in the execute part of a step, where `PC` is `A + 2` and `IR` the word: the record
holds `A` and the word (R183, log 17). -/
def State.raise (s : State) (cause : Fault) (info : Nat) : State :=
  s.enterFault { cause := cause, pc := s.pc - 2, ir := s.ir, info := info }

/-- `raise FetchOutOfRange(A)` in the fetch of a step: nothing was fetched, and `ir` is the old `IR` (R159,
R183). -/
def State.raiseFetch (s : State) : State :=
  s.enterFault { cause := .fetchOutOfRange, pc := s.pc, ir := s.ir, info := s.pc.toNat }

/-- What a step that began in `before` leaves, when its execute part answered `after`: if that raised a fault,
every effect of the step is discarded and `FAULT` is written (R159, R183). -/
def State.settle (before after : State) : State :=
  match after.fault with
  | none => after
  | some r => before.enterFault r

/-- The common end of an instruction that checks before it writes: `ok` is the check, `cause` and `info` the
fault it raises otherwise, `t` the effect (00_scope.md R7: every rule checks before it writes). -/
def State.checked (s : State) (ok : Bool) (cause : Fault) (info : Nat) (t : State) :
    Host.Outcome State Fault Refusal :=
  .next (if ok then t else s.raise cause info)

/-! ## Fetching an instruction (45_engine.md R159, 20_memory.md R43) -/

/-- `MemRead(PC, 2)`: none when `PC > 0x0FFE`, else the two bytes at `PC`, the high byte first. -/
def State.fetchWord (s : State) : Option Word :=
  if s.pc.toNat ≤ 0x0FFE then some (wordOfBytes (s.memRead s.pc.toNat) (s.memRead (s.pc.toNat + 1)))
  else none

/-- After the fetch of `w`: `IR <- w; PC <- PC + 2`, mod 65536, and one slot of the tick is used (R159). -/
def State.fetched (s : State) (w : Word) : State :=
  { s with ir := w, pc := s.pc + 2, slotsLeft := s.slotsLeft - 1 }

/-- The state with a word stored where the next fetch reads, and ready to fetch it: not faulted, `PC` inside
memory, and a slot to run in. In a state that is so already, only the two bytes of memory change. -/
def State.placeWord (s : State) (w : Word) : State :=
  let pc := if s.pc.toNat ≤ 0x0FFE then s.pc else Config.progStart
  let ready : State :=
    { s with pc := pc, fault := none, slotsLeft := if s.ipt = 0 then max 1 s.slotsLeft else s.slotsLeft }
  ready.memWriteList pc.toNat (bytesOfWord w)

/-! ## The parameters of the machine (00_scope.md R4) -/

/-- The parameters a machine in this state has. -/
def State.params (s : State) : Params :=
  { ipt := s.ipt, stackDepth := s.stack.depth, font := s.font }

end Sys2Proof.Machine
end

