-- ==== Sys2Proof/Machine/Flags.lean ====
section
/-! DEFINITION. The flag values that go to VF (10_state.md R13, R14; 41_alu.md R99, R106 to R110): each is
computed from the operands read before any write, is 0x00 or 0x01, and is written after the result. -/

namespace Sys2Proof.Machine

/-- The register that receives flags: VF (R13). -/
def vf : Nibble := 0xF

/-- A flag as the byte it is written as: 0x00 or 0x01 (R99). -/
def flagByte (f : Bool) : Byte := if f then 0x01 else 0x00

/-- The carry of an addition: the sum exceeds 255 (R106). -/
def carryOf (a b : Byte) : Bool := decide (255 < a.toNat + b.toNat)

/-- No borrow in `a - b`: `a >= b` (R107, R109). -/
def noBorrow (a b : Byte) : Bool := decide (b.toNat ≤ a.toNat)

/-- The bit a shift right drops: bit 0 (R108). -/
def lowBit (b : Byte) : Bool := b.getLsbD 0

/-- The bit a shift left drops: bit 7 (R110). -/
def highBit (b : Byte) : Bool := b.getLsbD 7

/-- Write a result to `V[x]` and then a flag to VF: when `x` is 0xF the flag stays and the result is lost
(R14). -/
def State.setFlagged (s : State) (x : Nibble) (r : Byte) (f : Bool) : State :=
  (s.setReg x r).setReg vf (flagByte f)

end Sys2Proof.Machine
end

