-- ==== Sys2Proof/Machine/Operands.lean ====
section
/-! DEFINITION. The operand forms of the instructions: immediates (30_encoding.md R62), the one addressing
mode `I + k` (42_index_memory.md R119), the register range of FX55 and FX65 (R124, R125), the decimal digits of
FX33 (R123) and the start position of a sprite (43_display.md R131). -/

namespace Sys2Proof.Machine

/-- `zext_16(NNN)` (R62). -/
def addrOf (nnn : Addr12) : Word := nnn.setWidth 16

/-- `zext_16` of a byte. -/
def wordOf (b : Byte) : Word := b.setWidth 16

/-- The effective address of byte `k` of an access: `I + k`, an integer sum with no wrap (R119, R123). -/
def State.effAddr (s : State) (k : Nat) : Nat := s.i.toNat + k

/-- Whether the bytes `I`, ..., `I + last` all lie inside the 4096 bytes (R119). -/
def State.accessFits (s : State) (last : Nat) : Bool := decide (s.effAddr last ≤ 0x0FFF)

/-- Whether the `n` bytes of a sprite at `I` all lie inside the 4096 bytes; a sprite of no rows always does
(R131, R135). -/
def State.spriteFits (s : State) (n : Nat) : Bool := n == 0 || s.accessFits (n - 1)

/-- `v div 100` (R123). -/
def hundredsOf (v : Byte) : Byte := BitVec.ofNat 8 (v.toNat / 100)

/-- `(v div 10) mod 10` (R123). -/
def tensOf (v : Byte) : Byte := BitVec.ofNat 8 (v.toNat / 10 % 10)

/-- `v mod 10` (R123). -/
def onesOf (v : Byte) : Byte := BitVec.ofNat 8 (v.toNat % 10)

/-- `zext_16(v) * 5`, the base of a digit's sprite; the whole byte is multiplied (R122). -/
def glyphAddr (v : Byte) : Word := wordOf v * BitVec.ofNat 16 Config.glyphBytes

/-- `V[X] mod 64`: the start column (R131). -/
def startCol (b : Byte) : Nat := b.toNat % 64

/-- `V[Y] mod 32`: the start row (R131). -/
def startRow (b : Byte) : Nat := b.toNat % 32

/-- Store `V[0..n-1]` at `I`, `V[0]` at the lowest address (R124). -/
def State.storeRegs (s : State) : Nat → State
  | 0 => s
  | n + 1 => (s.storeRegs n).memWrite (s.effAddr n) (s.reg (BitVec.ofNat 4 n))

/-- Load `V[0..n-1]` from `I`, `V[0]` from the lowest address (R125). -/
def State.loadRegs (s : State) : Nat → State
  | 0 => s
  | n + 1 => (s.loadRegs n).setReg (BitVec.ofNat 4 n) (s.memRead (s.effAddr n))

/-- `I <- (I + n) mod 65536`: the post-increment of FX55 and FX65 (R119). -/
def State.advanceIndex (s : State) (n : Nat) : State := s.setIndex (s.i + BitVec.ofNat 16 n)

end Sys2Proof.Machine
end

