-- ==== Sys2Proof/Machine/Alu.lean ====
section
/-! DEFINITION. Register loads, arithmetic, logic, shifts, random (spec 41_alu.md). All arithmetic is mod 256
(R99); none of these changes `PC`, and none can fault. -/

namespace Sys2Proof.Machine

/-- 6XNN LD Vx,NN (R100). -/
def execLdImm (x : Nibble) (nn : Byte) (s : State) : Host.Outcome State Fault Refusal :=
  .next (s.setReg x nn)

/-- 7XNN ADD Vx,NN: VF is not written, even on wrap-around (R101). -/
def execAddImm (x : Nibble) (nn : Byte) (s : State) : Host.Outcome State Fault Refusal :=
  .next (s.setReg x (s.reg x + nn))

/-- 8XY0 LD Vx,Vy (R102). -/
def execLdReg (x y : Nibble) (s : State) : Host.Outcome State Fault Refusal :=
  .next (s.setReg x (s.reg y))

/-- 8XY1 OR Vx,Vy: VF is not written (R103). -/
def execOrReg (x y : Nibble) (s : State) : Host.Outcome State Fault Refusal :=
  .next (s.setReg x (s.reg x ||| s.reg y))

/-- 8XY2 AND Vx,Vy: VF is not written (R104). -/
def execAndReg (x y : Nibble) (s : State) : Host.Outcome State Fault Refusal :=
  .next (s.setReg x (s.reg x &&& s.reg y))

/-- 8XY3 XOR Vx,Vy: VF is not written (R105). -/
def execXorReg (x y : Nibble) (s : State) : Host.Outcome State Fault Refusal :=
  .next (s.setReg x (s.reg x ^^^ s.reg y))

/-- 8XY4 ADD Vx,Vy: VF is the carry (R106). -/
def execAddReg (x y : Nibble) (s : State) : Host.Outcome State Fault Refusal :=
  .next (s.setFlagged x (s.reg x + s.reg y) (carryOf (s.reg x) (s.reg y)))

/-- 8XY5 SUB Vx,Vy: VF is 1 when `Vx >= Vy` (R107). -/
def execSubReg (x y : Nibble) (s : State) : Host.Outcome State Fault Refusal :=
  .next (s.setFlagged x (s.reg x - s.reg y) (noBorrow (s.reg x) (s.reg y)))

/-- 8XY6 SHR Vx,Vy: `V[Y]` is shifted into `V[X]`; VF is its bit 0 (R108). -/
def execShr (x y : Nibble) (s : State) : Host.Outcome State Fault Refusal :=
  .next (s.setFlagged x (s.reg y >>> 1) (lowBit (s.reg y)))

/-- 8XY7 SUBN Vx,Vy: VF is 1 when `Vy >= Vx` (R109). -/
def execSubn (x y : Nibble) (s : State) : Host.Outcome State Fault Refusal :=
  .next (s.setFlagged x (s.reg y - s.reg x) (noBorrow (s.reg y) (s.reg x)))

/-- 8XYE SHL Vx,Vy: `V[Y]` is shifted into `V[X]`; VF is its bit 7 (R110). -/
def execShl (x y : Nibble) (s : State) : Host.Outcome State Fault Refusal :=
  .next (s.setFlagged x (s.reg y <<< 1) (highBit (s.reg y)))

/-- The effect of CXNN for one random byte `r`: `V[X] <- r & NN` (R111). -/
def State.rndWith (s : State) (x : Nibble) (nn r : Byte) : State := s.drawRnd.setReg x (r &&& nn)

/-- CXNN RND Vx,NN: the random byte is the next one on the port, a free value (R111, R154; log 2). -/
def execRnd (x : Nibble) (nn : Byte) (s : State) : Host.Outcome State Fault Refusal :=
  .next (s.rndWith x nn (Config.rnd s.rndNo))

end Sys2Proof.Machine
end

