-- ==== Sys2Proof/Machine/Display.lean ====
section
/-! DEFINITION. The display instructions (spec 43_display.md). -/

namespace Sys2Proof.Machine

/-- 00E0 CLS: every pixel 0; VF is not written (R130). -/
def execCls (s : State) : Host.Outcome State Fault Refusal := .next (s.setDisplay Display.clear)

/-- The draw of an `n`-row sprite at `I`, started at column `V[x] mod 64` and row `V[y] mod 32`: the display
it leaves and whether it turned a pixel off (R131). -/
def State.drawn (s : State) (x y : Nibble) (n : Nat) : Canvas :=
  Canvas.drawRows (fun r => s.memRead (s.effAddr r)) (startCol (s.reg x)) (startRow (s.reg y)) n 0
    { disp := s.disp, hit := false }

/-- DXYN DRW Vx,Vy,N: XOR the sprite at `I` onto the display, then VF is the collision flag of the whole
draw (R131 to R135). -/
def execDrw (x y n : Nibble) (s : State) : Host.Outcome State Fault Refusal :=
  s.checked (s.spriteFits n.toNat) .memOutOfRange (s.effAddr (n.toNat - 1))
    ((s.setDisplay (s.drawn x y n.toNat).disp).setReg vf (flagByte (s.drawn x y n.toNat).hit))

end Sys2Proof.Machine
end

