-- ==== Sys2Proof/Machine/Flow.lean ====
section
/-! DEFINITION. Control transfer (spec 40_flow.md). On entry `IR` holds the word and `PC` is `A + 2` (R7). -/

namespace Sys2Proof.Machine

/-- UNKNOWN: nothing; the whole effect of the step is the fetch's (R80). -/
def execUnknown (_w : Word) (s : State) : Host.Outcome State Fault Refusal := .next s

/-- 00EE RET: `PC <- Pop()`, or `StackUnderflow` (R81). -/
def execRet (s : State) : Host.Outcome State Fault Refusal :=
  match s.stack.pop with
  | none => .next (s.raise .stackUnderflow 0)
  | some (a, k) => .next ((s.setStack k).setPc a)

/-- 1NNN JMP NNN: `PC <- NNN` (R82). -/
def execJmp (nnn : Addr12) (s : State) : Host.Outcome State Fault Refusal :=
  .next (s.setPc (addrOf nnn))

/-- 2NNN CALL NNN: `Push(PC); PC <- NNN`, or `StackOverflow` (R83). -/
def execCall (nnn : Addr12) (s : State) : Host.Outcome State Fault Refusal :=
  match s.stack.push s.pc with
  | none => .next (s.raise .stackOverflow 0)
  | some k => .next ((s.setStack k).setPc (addrOf nnn))

/-- 3XNN SE Vx,NN: skip if equal (R84). -/
def execSeImm (x : Nibble) (nn : Byte) (s : State) : Host.Outcome State Fault Refusal :=
  .next (s.skipIf (s.reg x == nn))

/-- 4XNN SNE Vx,NN: skip if not equal (R85). -/
def execSneImm (x : Nibble) (nn : Byte) (s : State) : Host.Outcome State Fault Refusal :=
  .next (s.skipIf (s.reg x != nn))

/-- 5XY0 SE Vx,Vy: skip if equal (R86). -/
def execSeReg (x y : Nibble) (s : State) : Host.Outcome State Fault Refusal :=
  .next (s.skipIf (s.reg x == s.reg y))

/-- 9XY0 SNE Vx,Vy: skip if not equal (R87). -/
def execSneReg (x y : Nibble) (s : State) : Host.Outcome State Fault Refusal :=
  .next (s.skipIf (s.reg x != s.reg y))

/-- BNNN JMP V0,NNN: `PC <- V[0] + NNN`, a 16-bit sum that is not masked (R89). -/
def execJmpV0 (nnn : Addr12) (s : State) : Host.Outcome State Fault Refusal :=
  .next (s.setPc (wordOf (s.reg 0) + addrOf nnn))

end Sys2Proof.Machine
end

