-- ==== Sys2Proof/Machine/IndexMemory.lean ====
section
/-! DEFINITION. Index register and memory instructions (spec 42_index_memory.md). The whole range of an access
is checked before anything is written (R119); none of these writes VF as a flag or changes `PC`. -/

namespace Sys2Proof.Machine

/-- ANNN LD I,NNN (R120). -/
def execLdI (nnn : Addr12) (s : State) : Host.Outcome State Fault Refusal :=
  .next (s.setIndex (addrOf nnn))

/-- FX1E ADD I,Vx: mod 65536, not masked, no flag (R121). -/
def execAddI (x : Nibble) (s : State) : Host.Outcome State Fault Refusal :=
  .next (s.setIndex (s.i + wordOf (s.reg x)))

/-- FX29 LD F,Vx: `I <- V[X] * 5` (R122). -/
def execLdF (x : Nibble) (s : State) : Host.Outcome State Fault Refusal :=
  .next (s.setIndex (glyphAddr (s.reg x)))

/-- FX33 LD B,Vx: hundreds, tens and ones at `I`, `I + 1`, `I + 2` (R123). -/
def execLdB (x : Nibble) (s : State) : Host.Outcome State Fault Refusal :=
  s.checked (s.accessFits 2) .memOutOfRange (s.effAddr 2)
    (s.memWriteList (s.effAddr 0) [hundredsOf (s.reg x), tensOf (s.reg x), onesOf (s.reg x)])

/-- FX55 LD [I],Vx: store `V[0..X]` from `I` on, then `I <- I + X + 1` (R124). -/
def execStore (x : Nibble) (s : State) : Host.Outcome State Fault Refusal :=
  s.checked (s.accessFits x.toNat) .memOutOfRange (s.effAddr x.toNat)
    ((s.storeRegs (x.toNat + 1)).advanceIndex (x.toNat + 1))

/-- FX65 LD Vx,[I]: load `V[0..X]` from `I` on, then `I <- I + X + 1` (R125). -/
def execLoad (x : Nibble) (s : State) : Host.Outcome State Fault Refusal :=
  s.checked (s.accessFits x.toNat) .memOutOfRange (s.effAddr x.toNat)
    ((s.loadRegs (x.toNat + 1)).advanceIndex (x.toNat + 1))

end Sys2Proof.Machine
end

