-- ==== Sys2Proof/Machine/KeypadTimer.lean ====
section
/-! DEFINITION. Keypad and timer instructions (spec 44_keypad_timer.md). -/

namespace Sys2Proof.Machine

/-- EX9E SKP Vx: skip if key `V[X]` is held, or `KeyIndexOutOfRange` when `V[X] > 15` (R140). -/
def execSkp (x : Nibble) (s : State) : Host.Outcome State Fault Refusal :=
  s.checked (decide ((s.reg x).toNat ≤ 15)) .keyIndexOutOfRange (s.reg x).toNat
    (s.skipIf (s.keyHeld (s.reg x).toNat))

/-- EXA1 SKNP Vx: skip if key `V[X]` is not held, or `KeyIndexOutOfRange` when `V[X] > 15` (R141). -/
def execSknp (x : Nibble) (s : State) : Host.Outcome State Fault Refusal :=
  s.checked (decide ((s.reg x).toNat ≤ 15)) .keyIndexOutOfRange (s.reg x).toNat
    (s.skipIf (!s.keyHeld (s.reg x).toNat))

/-- FX07 LD Vx,DT (R142). -/
def execLdVxDT (x : Nibble) (s : State) : Host.Outcome State Fault Refusal :=
  .next (s.setReg x s.dt)

/-- The effect of FX0A for one sample of the key-wait port: the key goes to `V[X]`, or `PC` goes back by 2 so
that the same instruction is fetched again (R145). -/
def State.keyWaitWith (s : State) (x : Nibble) (k : Config.KeySample) : State :=
  if k.valid then s.drawKeyWait.setReg x (k.key.setWidth 8) else s.drawKeyWait.setPc (s.pc - 2)

/-- FX0A LD Vx,K: the sample is the next one on the key-wait port, a free value (R145, R153; log 3). -/
def execLdVxK (x : Nibble) (s : State) : Host.Outcome State Fault Refusal :=
  .next (s.keyWaitWith x (Config.keyWait s.kwNo))

/-- FX15 LD DT,Vx (R143). -/
def execLdDTVx (x : Nibble) (s : State) : Host.Outcome State Fault Refusal :=
  .next (s.setDelay (s.reg x))

/-- FX18 LD ST,Vx: the audio trigger is not driven by the write (R144). -/
def execLdSTVx (x : Nibble) (s : State) : Host.Outcome State Fault Refusal :=
  .next (s.setSound (s.reg x))

end Sys2Proof.Machine
end

