-- ==== Sys2Proof/Machine/Engine.lean ====
section
/-! DEFINITION. The execution engine (spec 45_engine.md): the opening of a tick, one instruction slot, and the
whole tick a host requests. -/

namespace Sys2Proof.Machine

/-- A timer at the start of a tick: one less while nonzero, never below 0 (R157, 60_exceptions.md R189). -/
def timerTick (b : Byte) : Byte := if b = 0 then b else b - 1

/-- The head of a tick (R157): both timers, then the audio trigger from `ST` after its decrement (R155), then
the key snapshot (R158), and the budget of `IPT` slots (R162). -/
def State.openTick (s : State) (keysIn : BitVec 16) : State :=
  { s with
    dt := timerTick s.dt
    st := timerTick s.st
    audio := timerTick s.st != 0
    keys := keysIn
    slotsLeft := s.ipt
    tickNo := s.tickNo + 1 }

/-- A tick of a faulted machine: nothing changes, and `audio_trigger` is driven to 0 (R157, R184). -/
def State.idleTick (s : State) : State := { s with audio := false }

/-- The end of a step whose execute part answered an outcome (R159, R183). -/
def State.settleOutcome (before : State) :
    Host.Outcome State Fault Refusal → Host.Outcome State Fault Refusal
  | .next t => .next (before.settle t)
  | .fault f => .fault f
  | .refused r => .refused r

/-- `Step()`: fetch, advance `PC`, decode, execute (R159). -/
def instrStep (s : State) : Host.Outcome State Fault Refusal :=
  match s.fetchWord with
  | none => .next s.raiseFetch
  | some w => s.settleOutcome (exec (decode w) (s.fetched w))

/-- `repeat IPT times: Step(); if FAULT != none then return` (R157). -/
def runSlots : Nat → State → Host.Outcome State Fault Refusal
  | 0, s => .next s
  | n + 1, s =>
    match instrStep s with
    | .next t => if t.fault.isSome then .next t else runSlots n t
    | .fault f => .fault f
    | .refused r => .refused r

/-- `tick(keys_in)`, the host's request, as one atomic event (R157). -/
def tick (keysIn : BitVec 16) (s : State) : Host.Outcome State Fault Refusal :=
  if s.fault.isSome then .next s.idleTick else runSlots s.ipt (s.openTick keysIn)

/-- The state in which the next slot's instruction is fetched: where no slot of an open tick is left, the next
tick is opened first, with the key vector of the free input (log 1, log 4). -/
def State.atSlot (s : State) : State :=
  if s.slotsLeft = 0 then s.openTick (Config.keysIn s.tickNo) else s

/-- One instruction slot of the machine under a host that requests tick after tick (log 1). A faulted machine's
tick changes nothing (R184); a tick whose budget is 0 opens and ends (log 11). -/
def runSlot (s : State) : Host.Outcome State Fault Refusal :=
  match s.fault with
  | some _ => .next s.idleTick
  | none => if s.atSlot.slotsLeft = 0 then .next s.atSlot else instrStep s.atSlot

end Sys2Proof.Machine
end

