-- ==== Sys2Proof/Machine/Step.lean ====
section
/-! DEFINITION. The step of the machine, and the placing of an instruction where the next step fetches it. -/

namespace Sys2Proof.Machine

/-- One step: one instruction slot (45_engine.md R159), opening the next tick first where the last one's budget
is spent (R157, log 1). -/
def step (s : State) : Host.Outcome State Fault Refusal := runSlot s

/-- `s` with the instruction whose bits are `w` (the low `nbits` of them, the rest 0) stored where the next step
fetches, so that the very next step runs it (log 14). -/
def State.withFetchWord (s : State) (nbits w : Nat) : State :=
  s.placeWord (BitVec.ofNat 16 (w % 2 ^ nbits))

end Sys2Proof.Machine
end

