-- ==== Sys2Proof/Machine/Disassembler.lean ====
section
/-! DEFINITION. The disassembler (spec 46_disassembler.md): a read-only function of memory that uses the same
`decode` as execution (R170). -/

namespace Sys2Proof.Machine

/-- One line of the result: an address and its text (R171). -/
structure Line where
  addr : Word
  text : String
deriving DecidableEq, Repr

/-- An upper-case hexadecimal digit (R174). -/
def hexDigit (n : Nat) : Char :=
  (['0', '1', '2', '3', '4', '5', '6', '7', '8', '9', 'A', 'B', 'C', 'D', 'E', 'F']).getD n '0'

/-- An address as four upper-case hexadecimal digits (R174). -/
def hexAddr (a : Word) : String :=
  let n := a.toNat
  String.ofList [hexDigit (n / 4096 % 16), hexDigit (n / 256 % 16), hexDigit (n / 16 % 16), hexDigit (n % 16)]

/-- `Line(a, e)`: the text `$ADDR: MNEMONIC`, operands not substituted (R174). -/
def lineText (names : Vector String 35) (a : Word) (e : Fin 35) : String :=
  "$" ++ hexAddr a ++ ": " ++ names[e]

/-- The word at an address, high byte first, as fetch reads it (R171, 20_memory.md R43). -/
def State.wordAt (s : State) (a : Nat) : Word := wordOfBytes (s.memRead a) (s.memRead (a + 1))

/-- The line of the word at an address (R171). -/
def State.lineAt (s : State) (names : Vector String 35) (a : Nat) : Line :=
  { addr := BitVec.ofNat 16 a
    text := lineText names (BitVec.ofNat 16 a) (tableIndex (decode (s.wordAt a))) }

/-- The lines of `n` words at `a`, `a + 2`, ... (R171). -/
def State.walk (s : State) (names : Vector String 35) : Nat → Nat → List Line
  | 0, _ => []
  | n + 1, a => s.lineAt names a :: s.walk names n (a + 2)

/-- The number of addresses `lo`, `lo + 2`, ... not above `hi` (R171). -/
def walkLength (lo hi : Nat) : Nat := if lo ≤ hi then (hi - lo) / 2 + 1 else 0

/-- `disassemble(lo, hi)`, with the mnemonic strings a parameter (00_scope.md R4): none is the refusal of R172,
which is no fault and leaves the state alone. It answers lines and no state: it changes none (R173). -/
def disassemble (names : Vector String 35) (s : State) (lo hi : Word) : Option (List Line) :=
  if 0x0FFE < hi.toNat then none else some (s.walk names (walkLength lo.toNat hi.toNat) lo.toNat)

end Sys2Proof.Machine
end

