-- ==== Sys2Proof/Machine/HostEvents.lean ====
section
/-! DEFINITION. The requests of the host (spec 45_engine.md R150; 70_reset_and_hazards.md R210 to R213), each
atomic, issued between ticks (log 20). -/

namespace Sys2Proof.Machine

/-- `for j in 0..79: MEM[j] <- FONT[j]`: in the canonical form no byte of the font region stays listed, and no
other byte changes (R211, 10_state.md R32). -/
def Memory.restoreFont (m : Memory) : Memory := m.filter (fun c => decide (80 ≤ c.1))

/-- `reset` (R211). The parameters stay, and so do the model's own input counters and last trigger (log 15). -/
def State.resetEvent (s : State) : State :=
  { s with
    v := .replicate 16 0
    i := 0
    pc := Config.progStart
    stack := CallStack.fresh s.stack.depth
    dt := 0
    st := 0
    keys := 0
    disp := Display.clear
    ir := 0
    fault := none
    mem := Memory.restoreFont s.mem
    slotsLeft := 0 }

/-- `load_rom(bytes)`: reset, clear the display, copy at most 3584 bytes from 0x200 on; the rest of the ROM is
dropped and the rest of memory keeps its bytes (R212). -/
def State.loadRom (s : State) (rom : List Byte) : State :=
  (s.resetEvent.setDisplay Display.clear).memWriteList Config.progStart.toNat (rom.take Config.progSize)

/-- `power_on`: every bit 0, then reset (R210). The model's own input counters go on, so that the machine does
not see the same inputs again (log 15). -/
def State.powerOnEvent (s : State) : State :=
  { State.powerOn s.params with tickNo := s.tickNo, rndNo := s.rndNo, kwNo := s.kwNo }

/-- The five requests (45_engine.md R150). -/
inductive Event where
  | powerOn
  | reset
  | loadRom (rom : List Byte)
  | tick (keysIn : BitVec 16)
  | disassemble (lo hi : Word)
deriving DecidableEq, Repr

/-- What a request leaves of the state. The lines of `disassemble` are the function of that name's; it changes
no state (46_disassembler.md R173). The audio trigger of a tick is the field `audio` (R155). -/
def hostEvent (e : Event) (s : State) : Host.Outcome State Fault Refusal :=
  match e with
  | .powerOn => .next s.powerOnEvent
  | .reset => .next s.resetEvent
  | .loadRom rom => .next (s.loadRom rom)
  | .tick keysIn => tick keysIn s
  | .disassemble _ _ => .next s

end Sys2Proof.Machine
end

