-- ==== Sys2Proof/Safety.lean ====
section
/-! DEFINITION. The terms claims are stated in: what a step may leave unchanged (frames), the invariant of the
machine, a safe run, and sequences of fetched instructions. -/

namespace Sys2Proof.Machine

/-! ## Frames -/

/-- The pieces of a state, memory byte by byte and registers one by one. -/
inductive Part where
  | reg (x : Nibble)
  | index
  | pc
  | stack
  | delay
  | sound
  | display
  | keys
  | ir
  | fault
  | byte (a : Nat)
  | params
  | slots
  | audio
  | tickNo
  | rndNo
  | kwNo
deriving DecidableEq, Repr

/-- Two states agree on a piece; a byte of memory is compared through the model's read of one byte. -/
def Part.Same (p : Part) (s t : State) : Prop :=
  match p with
  | .reg x => t.reg x = s.reg x
  | .index => t.i = s.i
  | .pc => t.pc = s.pc
  | .stack => t.stack = s.stack
  | .delay => t.dt = s.dt
  | .sound => t.st = s.st
  | .display => t.disp = s.disp
  | .keys => t.keys = s.keys
  | .ir => t.ir = s.ir
  | .fault => t.fault = s.fault
  | .byte a => t.memRead a = s.memRead a
  | .params => t.font = s.font ∧ t.ipt = s.ipt
  | .slots => t.slotsLeft = s.slotsLeft
  | .audio => t.audio = s.audio
  | .tickNo => t.tickNo = s.tickNo
  | .rndNo => t.rndNo = s.rndNo
  | .kwNo => t.kwNo = s.kwNo

/-- From `s` to `t` nothing changes but the pieces that `changed` names. -/
def ChangesOnly (changed : Part → Prop) (s t : State) : Prop := ∀ p, ¬ changed p → p.Same s t

/-- Executing `i` in `s` raises a fault: the record holds the cause, the address the instruction was fetched
from (`PC` has moved past it), the word and the value of R181's fifth column; nothing else changes, and the tick
ends (60_exceptions.md R183). -/
def Raises (i : Instr) (s : State) (cause : Fault) (info : Nat) : Prop :=
  ∃ t, exec i s = .next t
    ∧ t.fault = some { cause := cause, pc := s.pc - 2, ir := s.ir, info := info } ∧ t.slotsLeft = 0
    ∧ ChangesOnly (fun p => p = .fault ∨ p = .slots) s t

/-- The entries of the opcode table whose instructions may write a piece of the state. For the pieces 10_state.md's
summary table has a row for, its "written by" column (the two rows of the stack taken as one piece, log 8; the
"faulting step" of `FAULT` by R181's "raised by"; what a fetch or a tick writes is no instruction's). The
parameters have no writer (R4). The lists of the model's own fields are the model's choice: the slots of the tick,
which a fault ends (log 1), the last audio trigger (log 7), the counts of ticks (log 4), random bytes (log 2) and
key-wait samples (log 3). -/
def writersOf : Part → List (Fin 35)
  | .reg _ => [8, 9, 10, 11, 12, 13, 14, 15, 16, 17, 18, 22, 23, 26, 27, 34]
  | .index => [20, 30, 31, 33, 34]
  | .pc => [2, 3, 4, 5, 6, 7, 19, 21, 24, 25, 27]
  | .stack => [2, 4]
  | .delay => [28]
  | .sound => [29]
  | .display => [1, 23]
  | .byte _ => [32, 33]
  | .fault => [2, 4, 23, 24, 25, 32, 33, 34]
  | .slots => [2, 4, 23, 24, 25, 32, 33, 34]
  | .rndNo => [22]
  | .kwNo => [27]
  | .keys | .ir | .params | .audio | .tickNo => []

/-! ## The pixels of a sprite -/

/-- The sprite of `n` rows at `I`, started at (V[x] mod 64, V[y] mod 32), has a 1 bit on the pixel in row `py`,
column `px`: bit 7 of a byte is its leftmost pixel, and the body is clipped at row 31 and column 63 (R131, R132,
R133). -/
def SpriteSets (s : State) (x y n : Nibble) (py px : Nat) : Prop :=
  (s.reg y).toNat % 32 ≤ py ∧ py < (s.reg y).toNat % 32 + n.toNat ∧ py < 32
  ∧ (s.reg x).toNat % 64 ≤ px ∧ px < (s.reg x).toNat % 64 + 8 ∧ px < 64
  ∧ (s.memRead (s.effAddr (py - (s.reg y).toNat % 32))).getLsbD (7 - (px - (s.reg x).toNat % 64)) = true

/-! ## The faults of R181 -/

/-- The code and the recorded value of the fault that executing `i` in `s` raises, row by row from the table of
60_exceptions.md R181 (row 3 is the fetch's); none where the table has no row for it. The highest address of an
access is that of its last byte. -/
def raisedBy (i : Instr) (s : State) : Option (Nat × Nat) :=
  match i with
  | .ret => if s.stack.sp = 0 then some (1, 0) else none
  | .call _ => if s.stack.sp = s.stack.depth then some (2, 0) else none
  | .drw _ _ n =>
    if n ≠ 0 ∧ 0x0FFF < s.effAddr (n.toNat - 1) then some (4, s.effAddr (n.toNat - 1)) else none
  | .ldB _ => if 0x0FFF < s.effAddr 2 then some (4, s.effAddr 2) else none
  | .store x | .load x => if 0x0FFF < s.effAddr x.toNat then some (4, s.effAddr x.toNat) else none
  | .skp x | .sknp x => if 15 < (s.reg x).toNat then some (5, (s.reg x).toNat) else none
  | .cls | .jmp _ | .seImm _ _ | .sneImm _ _ | .seReg _ _ _ | .sneReg _ _ _ | .jmpV0 _ | .ldImm _ _ | .addImm _ _
  | .ldReg _ _ | .orReg _ _ | .andReg _ _ | .xorReg _ _ | .addReg _ _ | .subReg _ _ | .shr _ _ | .subn _ _
  | .shl _ _ | .rnd _ _ | .ldI _ | .addI _ | .ldF _ | .ldVxDT _ | .ldVxK _ | .ldDTVx _ | .ldSTVx _
  | .unknown _ => none

/-! ## The invariant -/

/-- The `FAULT` register holds what 60_exceptions.md R181 says of its cause: which entries of the opcode table
raise it, and which values `info` can have. -/
def FaultRecord.coherent (r : FaultRecord) : Bool :=
  match r.cause with
  | .stackUnderflow => tableIndex (decode r.ir) == 2 && r.info == 0 && decide (r.pc.toNat ≤ 0x0FFE)
  | .stackOverflow => tableIndex (decode r.ir) == 4 && r.info == 0 && decide (r.pc.toNat ≤ 0x0FFE)
  | .fetchOutOfRange => r.info == r.pc.toNat && decide (0x0FFE < r.pc.toNat)
  | .memOutOfRange =>
    [23, 32, 33, 34].elem (tableIndex (decode r.ir)) && decide (0x0FFF < r.info)
      && decide (r.info ≤ 0xFFFF + 15) && decide (r.pc.toNat ≤ 0x0FFE)
  | .keyIndexOutOfRange =>
    [24, 25].elem (tableIndex (decode r.ir)) && decide (15 < r.info) && decide (r.info ≤ 255)
      && decide (r.pc.toNat ≤ 0x0FFE)

/-- The invariant of the machine: memory is in its canonical form and inside the address space, no more slots
are left than the budget, and a fault has ended its tick and is recorded as R181 says. -/
abbrev State.Inv (s : State) : Prop :=
  Memory.wf (Memory.unlisted s.font) s.mem ∧ s.slotsLeft ≤ s.ipt
    ∧ ∀ r ∈ s.fault, s.slotsLeft = 0 ∧ r.coherent = true

/-! ## Runs -/

/-- `k` steps from `s` end in a state, and none of the states on the way holds a fault: a faulted state is never
a successful end of a run (60_exceptions.md R184). -/
def SafeRun (k : Nat) (s : State) : Prop :=
  ∀ j ≤ k, ∃ t : State, core.run j s = .next t ∧ t.fault = none

/-- The heads of successive ticks with the given key vectors (45_engine.md R157), no instruction run between them:
what the ticks do to the timers while no instruction writes one. -/
def tickHeads (ks : List (BitVec 16)) (s : State) : State := ks.foldl State.openTick s

/-- An instruction executed as the fetch of its word leaves the state (00_scope.md R7). -/
def execFetched (i : Instr) (s : State) : Host.Outcome State Fault Refusal := exec i (s.fetched (encode i))

/-- A sequence of instructions, each executed as its fetch leaves the state, wherever control goes. -/
def execSeq : List Instr → State → Host.Outcome State Fault Refusal
  | [], s => .next s
  | i :: rest, s =>
    match execFetched i s with
    | .next t => execSeq rest t
    | .fault f => .fault f
    | .refused r => .refused r

end Sys2Proof.Machine
end

