-- ==== Sys2Proof/Certificates/Slice0/Obligations.lean ====
section
/-! DEFINITION. The statements about the model, each from the numbered rules of spec/ that its docstring names.
The executions are of `exec`, whose state is the one after the fetch: `IR` holds the word and `PC` the address
of the next instruction (00_scope.md R7). A statement about an instruction says first which words are that
instruction: the "Encoding" of its rule. -/

open Sys2Proof Sys2Proof.Machine

/-! ## Encoding (30_encoding.md) -/

/-- R61, R64, R66: no bit of an encoding is dropped. The operands counted are the model's: the nibble that 5XYk and
9XYk ignore and the word of the unknown entry are fields of the instruction by the model's choice (log 16). -/
def Obligations.DecodeEncodeRoundTrip : Prop :=
  ∀ i : Instr, i.wellFormed = true → decode (encode i) = i

/-- R63, R64, R67: every word decodes to exactly one entry, with its fields, and to the unknown one only if R67 lists
the word (the first clause). That encoding gives the word back (the second) follows from the fields of R61 and R64
for the other words; for 5XYk and 9XYk with k not 0 and for the unknown words it rests on the model's choice (log
16, DESIGN CHOICE) to keep the ignored nibble and the unknown word as fields. No rule says it of these: by R65 an
assembler emits a 0 low nibble. -/
def Obligations.EncodeDecodeRoundTrip : Prop :=
  ∀ w : Word, (decode w).wellFormed = true ∧ encode (decode w) = w

/-- R64, R66: the decoder and the table of match and mask agree on every word, and at most one row accepts a
word. -/
def Obligations.DecoderAgreesWithTable : Prop :=
  ∀ w : Word, (tableIndex (decode w)).val = tableLookup w
    ∧ ∀ r ∈ opcodeRows, ∀ q ∈ opcodeRows, r.accepts w = true → q.accepts w = true → r = q

/-- R67: the words of the unknown entry, family by family. That the entry holds its word is the model's choice (log
16). -/
def Obligations.UnknownWordsAreThoseListed : Prop :=
  ∀ w : Word, decode w = .unknown w ↔
    (opOf w = 0x0 ∧ w ≠ 0x00E0 ∧ w ≠ 0x00EE)
    ∨ (opOf w = 0x8 ∧ nOf w ∈ [0x8, 0x9, 0xA, 0xB, 0xC, 0xD, 0xF])
    ∨ (opOf w = 0xE ∧ nnOf w ∉ [0x9E, 0xA1])
    ∨ (opOf w = 0xF ∧ nnOf w ∉ [0x07, 0x0A, 0x15, 0x18, 0x1E, 0x29, 0x33, 0x55, 0x65])

/-- R65: the low nibble of families 5 and 9 is not examined. -/
def Obligations.LowNibbleIsIgnored : Prop :=
  ∀ (x y k : Nibble) (s : State),
    tableIndex (decode (fmtXYN 0x5 x y k)) = 7
    ∧ exec (decode (fmtXYN 0x5 x y k)) s = exec (decode (fmtXYN 0x5 x y 0)) s
    ∧ tableIndex (decode (fmtXYN 0x9 x y k)) = 19
    ∧ exec (decode (fmtXYN 0x9 x y k)) s = exec (decode (fmtXYN 0x9 x y 0)) s

/-- R64 (words of 95_test_vectors.md 2.1): a sanity statement. -/
def Obligations.SampleWordsDecode : Prop :=
  decode 0x00E0 = .cls ∧ decode 0x00EE = .ret ∧ decode 0x01E0 = .unknown 0x01E0
  ∧ decode 0x10E0 = .jmp 0x0E0 ∧ decode 0x3A05 = .seImm 0xA 0x05 ∧ decode 0x5AB7 = .seReg 0xA 0xB 0x7
  ∧ decode 0x8AB6 = .shr 0xA 0xB ∧ decode 0x8ABE = .shl 0xA 0xB ∧ decode 0x8AB8 = .unknown 0x8AB8
  ∧ decode 0xA123 = .ldI 0x123 ∧ decode 0xC1FF = .rnd 0x1 0xFF ∧ decode 0xD015 = .drw 0x0 0x1 0x5
  ∧ decode 0xEFA1 = .sknp 0xF ∧ decode 0xF033 = .ldB 0x0 ∧ decode 0xF075 = .unknown 0xF075

/-! ## Control transfer (40_flow.md) -/

/-- R80: an unknown word does nothing; the whole effect of its step is the fetch's. The word 0 is one. -/
def Obligations.UnknownWordOnlyAdvances : Prop :=
  (∀ (w : Word) (s : State), exec (.unknown w) s = .next s)
  ∧ decode 0x0000 = .unknown 0x0000
  ∧ ∀ (w : Word) (s : State), s.fault = none → s.fetchWord = some w → decode w = .unknown w →
      ∃ t, instrStep s = .next t ∧ t.ir = w ∧ t.pc = s.pc + 2
        ∧ ChangesOnly (fun p => p = .ir ∨ p = .pc ∨ p = .slots) s t

/-- R80, R215, R217 (11.): from an even PC, memory that is 0 from PC to its end is a run of no-ops up to address
0x0FFE, and then a FetchOutOfRange fault at PC = 0x1000; the registers, the stack and the display are as before.
A parameter IPT of 0 runs no instruction and is left out; the ticks opened on the way are the model's (log 1). -/
def Obligations.ZeroedMemoryRunsToItsEnd : Prop :=
  ∀ s : State, s.fault = none → s.ipt ≠ 0 → s.pc.toNat < 0x1000 → s.pc.toNat % 2 = 0 →
    (∀ a, s.pc.toNat ≤ a → a < 0x1000 → s.memRead a = 0) →
    ∃ t : State, core.run ((0x1000 - s.pc.toNat) / 2) s = .next t ∧ t.fault = none ∧ t.pc = 0x1000 ∧ t.ir = 0
      ∧ (∀ x, t.reg x = s.reg x) ∧ t.i = s.i ∧ t.stack = s.stack ∧ t.disp = s.disp ∧ t.mem = s.mem
      ∧ ∃ u, step t = .next u
        ∧ u.fault = some { cause := .fetchOutOfRange, pc := 0x1000, ir := 0, info := 0x1000 }

/-- R81: RET pops the newest return address, which keeps its bits in the stack; with no valid entry it raises
StackUnderflow and changes nothing else. -/
def Obligations.RetPopsOrUnderflows : Prop :=
  ∀ s : State,
    (∀ w, decode w = .ret ↔ w = 0x00EE)
    ∧ (s.stack.sp ≠ 0 → ∃ t, exec .ret s = .next t
      ∧ s.stack.entries[s.stack.sp - 1]? = some t.pc ∧ t.stack.sp = s.stack.sp - 1
      ∧ t.stack.entries = s.stack.entries
      ∧ ChangesOnly (fun p => p = .pc ∨ p = .stack) s t)
    ∧ (s.stack.sp = 0 → Raises .ret s .stackUnderflow 0)

/-- R83: CALL pushes the address of the next instruction and jumps; with every entry valid it raises
StackOverflow and changes nothing else. -/
def Obligations.CallPushesOrOverflows : Prop :=
  ∀ (nnn : Addr12) (s : State),
    decode (fmtNNN 0x2 nnn) = .call nnn
    ∧ (s.stack.sp ≠ s.stack.depth → ∃ t, exec (.call nnn) s = .next t
      ∧ t.pc.toNat = nnn.toNat ∧ t.stack.sp = s.stack.sp + 1
      ∧ t.stack.entries = s.stack.entries.set s.stack.sp s.pc
      ∧ ChangesOnly (fun p => p = .pc ∨ p = .stack) s t)
    ∧ (s.stack.sp = s.stack.depth → Raises (.call nnn) s .stackOverflow 0)

/-- R81, R83 (source example S8): calls nested within the depth and as many returns come back to the instruction
after the first call, with the stack as deep as before and its valid entries untouched. -/
def Obligations.NestedCallsReturn : Prop :=
  ∀ (ns : List Addr12) (s : State), ns ≠ [] → s.stack.sp + ns.length ≤ s.stack.depth →
    ∃ t, execSeq (ns.map .call ++ List.replicate ns.length .ret) s = .next t
      ∧ t.pc = s.pc + 2 ∧ t.stack.sp = s.stack.sp
      ∧ t.stack.entries.take s.stack.sp = s.stack.entries.take s.stack.sp
      ∧ ChangesOnly (fun p => p = .pc ∨ p = .stack ∨ p = .ir ∨ p = .slots) s t

/-- R82, R89: the jumps set PC, to NNN and to the unmasked sum of V[0] and NNN, and change nothing else. -/
def Obligations.JumpsSetPc : Prop :=
  ∀ (nnn : Addr12) (s : State),
    decode (fmtNNN 0x1 nnn) = .jmp nnn ∧ decode (fmtNNN 0xB nnn) = .jmpV0 nnn
    ∧ (∃ t, exec (.jmp nnn) s = .next t ∧ t.pc.toNat = nnn.toNat ∧ ChangesOnly (fun p => p = .pc) s t)
    ∧ (∃ t, exec (.jmpV0 nnn) s = .next t ∧ t.pc.toNat = (s.reg 0).toNat + nnn.toNat
      ∧ ChangesOnly (fun p => p = .pc) s t)

/-- R84 to R87: the skips on registers and immediates add 2 to PC when their condition holds, else leave it, and
change nothing else. -/
def Obligations.SkipsCompareRegisters : Prop :=
  ∀ (x y k : Nibble) (nn : Byte) (s : State),
    decode (fmtXNN 0x3 x nn) = .seImm x nn ∧ decode (fmtXNN 0x4 x nn) = .sneImm x nn
    ∧ decode (fmtXYN 0x5 x y k) = .seReg x y k ∧ decode (fmtXYN 0x9 x y k) = .sneReg x y k
    ∧ (∃ t, exec (.seImm x nn) s = .next t ∧ t.pc = (if s.reg x = nn then s.pc + 2 else s.pc)
      ∧ ChangesOnly (fun p => p = .pc) s t)
    ∧ (∃ t, exec (.sneImm x nn) s = .next t ∧ t.pc = (if s.reg x = nn then s.pc else s.pc + 2)
      ∧ ChangesOnly (fun p => p = .pc) s t)
    ∧ (∃ t, exec (.seReg x y k) s = .next t ∧ t.pc = (if s.reg x = s.reg y then s.pc + 2 else s.pc)
      ∧ ChangesOnly (fun p => p = .pc) s t)
    ∧ (∃ t, exec (.sneReg x y k) s = .next t ∧ t.pc = (if s.reg x = s.reg y then s.pc else s.pc + 2)
      ∧ ChangesOnly (fun p => p = .pc) s t)

/-! ## Arithmetic and logic (41_alu.md) -/

/-- R100 to R105: the loads, the add of an immediate and the logical operations write V[X] and nothing else; VF
changes only as the destination. -/
def Obligations.LoadsAndLogicWriteOnlyVx : Prop :=
  ∀ (x y : Nibble) (nn : Byte) (s : State),
    decode (fmtXNN 0x6 x nn) = .ldImm x nn ∧ decode (fmtXNN 0x7 x nn) = .addImm x nn
    ∧ decode (fmtXYN 0x8 x y 0x0) = .ldReg x y ∧ decode (fmtXYN 0x8 x y 0x1) = .orReg x y
    ∧ decode (fmtXYN 0x8 x y 0x2) = .andReg x y ∧ decode (fmtXYN 0x8 x y 0x3) = .xorReg x y
    ∧ (∃ t, exec (.ldImm x nn) s = .next t ∧ t.reg x = nn ∧ ChangesOnly (fun p => p = .reg x) s t)
    ∧ (∃ t, exec (.addImm x nn) s = .next t ∧ (t.reg x).toNat = ((s.reg x).toNat + nn.toNat) % 256
      ∧ ChangesOnly (fun p => p = .reg x) s t)
    ∧ (∃ t, exec (.ldReg x y) s = .next t ∧ t.reg x = s.reg y ∧ ChangesOnly (fun p => p = .reg x) s t)
    ∧ (∃ t, exec (.orReg x y) s = .next t ∧ t.reg x = s.reg x ||| s.reg y
      ∧ ChangesOnly (fun p => p = .reg x) s t)
    ∧ (∃ t, exec (.andReg x y) s = .next t ∧ t.reg x = s.reg x &&& s.reg y
      ∧ ChangesOnly (fun p => p = .reg x) s t)
    ∧ (∃ t, exec (.xorReg x y) s = .next t ∧ t.reg x = s.reg x ^^^ s.reg y
      ∧ ChangesOnly (fun p => p = .reg x) s t)

/-- R106: the sum mod 256 in V[X] and the carry in VF; with X = 0xF the carry stays and the sum is lost. -/
def Obligations.AddSetsCarry : Prop :=
  ∀ (x y : Nibble) (s : State), decode (fmtXYN 0x8 x y 0x4) = .addReg x y ∧ ∃ t, exec (.addReg x y) s = .next t
    ∧ (x ≠ vf → (t.reg x).toNat = ((s.reg x).toNat + (s.reg y).toNat) % 256)
    ∧ t.reg vf = (if 255 < (s.reg x).toNat + (s.reg y).toNat then 1 else 0)
    ∧ ChangesOnly (fun p => p = .reg x ∨ p = .reg vf) s t

/-- R107, R109: the differences mod 256 in V[X] and no borrow in VF; with X = 0xF the flag stays. -/
def Obligations.SubtractionsSetNoBorrow : Prop :=
  ∀ (x y : Nibble) (s : State),
    decode (fmtXYN 0x8 x y 0x5) = .subReg x y ∧ decode (fmtXYN 0x8 x y 0x7) = .subn x y
    ∧ (∃ t, exec (.subReg x y) s = .next t
      ∧ (x ≠ vf → (t.reg x).toNat = ((s.reg x).toNat + 256 - (s.reg y).toNat) % 256)
      ∧ t.reg vf = (if (s.reg y).toNat ≤ (s.reg x).toNat then 1 else 0)
      ∧ ChangesOnly (fun p => p = .reg x ∨ p = .reg vf) s t)
    ∧ (∃ t, exec (.subn x y) s = .next t
      ∧ (x ≠ vf → (t.reg x).toNat = ((s.reg y).toNat + 256 - (s.reg x).toNat) % 256)
      ∧ t.reg vf = (if (s.reg x).toNat ≤ (s.reg y).toNat then 1 else 0)
      ∧ ChangesOnly (fun p => p = .reg x ∨ p = .reg vf) s t)

/-- R108, R110: the shifts take V[Y], by one bit, into V[X], and the bit shifted out into VF; with X = 0xF the
bit stays. -/
def Obligations.ShiftsTakeVy : Prop :=
  ∀ (x y : Nibble) (s : State),
    decode (fmtXYN 0x8 x y 0x6) = .shr x y ∧ decode (fmtXYN 0x8 x y 0xE) = .shl x y
    ∧ (∃ t, exec (.shr x y) s = .next t
      ∧ (x ≠ vf → (t.reg x).toNat = (s.reg y).toNat / 2)
      ∧ (t.reg vf).toNat = (s.reg y).toNat % 2
      ∧ ChangesOnly (fun p => p = .reg x ∨ p = .reg vf) s t)
    ∧ (∃ t, exec (.shl x y) s = .next t
      ∧ (x ≠ vf → (t.reg x).toNat = (s.reg y).toNat * 2 % 256)
      ∧ (t.reg vf).toNat = (s.reg y).toNat / 128
      ∧ ChangesOnly (fun p => p = .reg x ∨ p = .reg vf) s t)

/-- R112: one register as source and destination, each operation of the family; with X = Y = 0xF the last five
leave the flag computed from the old VF. -/
def Obligations.SameRegisterOperands : Prop :=
  ∀ (x : Nibble) (s : State),
    (∃ t, exec (.orReg x x) s = .next t ∧ t.reg x = s.reg x)
    ∧ (∃ t, exec (.andReg x x) s = .next t ∧ t.reg x = s.reg x)
    ∧ (∃ t, exec (.xorReg x x) s = .next t ∧ t.reg x = 0)
    ∧ (∃ t, exec (.addReg x x) s = .next t
      ∧ (x ≠ vf → (t.reg x).toNat = 2 * (s.reg x).toNat % 256)
      ∧ (t.reg vf).toNat = (s.reg x).toNat / 128)
    ∧ (∃ t, exec (.subReg x x) s = .next t ∧ (x ≠ vf → t.reg x = 0) ∧ t.reg vf = 1)
    ∧ (∃ t, exec (.subn x x) s = .next t ∧ (x ≠ vf → t.reg x = 0) ∧ t.reg vf = 1)
    ∧ (∃ t, exec (.shr x x) s = .next t
      ∧ (x ≠ vf → (t.reg x).toNat = (s.reg x).toNat / 2)
      ∧ (t.reg vf).toNat = (s.reg x).toNat % 2)
    ∧ (∃ t, exec (.shl x x) s = .next t
      ∧ (x ≠ vf → (t.reg x).toNat = 2 * (s.reg x).toNat % 256)
      ∧ (t.reg vf).toNat = (s.reg x).toNat / 128)

/-- R111 with log 2: CXNN puts the next random byte, a free value, ANDed with NN into V[X], draws one byte, and
changes nothing else. Holds whatever the byte is. -/
def Obligations.RndMasksTheDraw : Prop :=
  ∀ (x : Nibble) (nn : Byte) (s : State), decode (fmtXNN 0xC x nn) = .rnd x nn ∧ ∃ t, exec (.rnd x nn) s = .next t
    ∧ t.reg x = Config.rnd s.rndNo &&& nn ∧ t.rndNo = s.rndNo + 1
    ∧ ChangesOnly (fun p => p = .reg x ∨ p = .rndNo) s t

/-! ## Index and memory (42_index_memory.md, 20_memory.md) -/

/-- R120, R121, R122: the writes of I, none of them masked to 12 bits, none touching VF. -/
def Obligations.IndexWritesAreUnmasked : Prop :=
  ∀ (x : Nibble) (nnn : Addr12) (s : State),
    decode (fmtNNN 0xA nnn) = .ldI nnn ∧ decode (fmtXNN 0xF x 0x1E) = .addI x ∧ decode (fmtXNN 0xF x 0x29) = .ldF x
    ∧ (∃ t, exec (.ldI nnn) s = .next t ∧ t.i.toNat = nnn.toNat ∧ ChangesOnly (fun p => p = .index) s t)
    ∧ (∃ t, exec (.addI x) s = .next t ∧ t.i.toNat = (s.i.toNat + (s.reg x).toNat) % 65536
      ∧ ChangesOnly (fun p => p = .index) s t)
    ∧ (∃ t, exec (.ldF x) s = .next t ∧ t.i.toNat = (s.reg x).toNat * 5
      ∧ ChangesOnly (fun p => p = .index) s t)

/-- R123: FX33 stores the three decimal digits at I, I + 1, I + 2, no other byte and no register; where the last
address exceeds 0x0FFF it raises MemOutOfRange and writes nothing. -/
def Obligations.BcdStoresDigits : Prop :=
  ∀ (x : Nibble) (s : State),
    decode (fmtXNN 0xF x 0x33) = .ldB x
    ∧ (s.effAddr 2 ≤ 0x0FFF → ∃ t, exec (.ldB x) s = .next t
      ∧ (t.memRead (s.effAddr 0)).toNat = (s.reg x).toNat / 100
      ∧ (t.memRead (s.effAddr 1)).toNat = (s.reg x).toNat / 10 % 10
      ∧ (t.memRead (s.effAddr 2)).toNat = (s.reg x).toNat % 10
      ∧ ChangesOnly (fun p => p = .byte (s.effAddr 0) ∨ p = .byte (s.effAddr 1) ∨ p = .byte (s.effAddr 2)) s t)
    ∧ (0x0FFF < s.effAddr 2 → Raises (.ldB x) s .memOutOfRange (s.effAddr 2))

/-- R124: FX55 stores V[0..X] from I on, no other byte, and adds X + 1 to I; out of range it raises
MemOutOfRange and changes neither. -/
def Obligations.StoreCopiesRegisters : Prop :=
  ∀ (x : Nibble) (s : State),
    decode (fmtXNN 0xF x 0x55) = .store x
    ∧ (s.effAddr x.toNat ≤ 0x0FFF → ∃ t, exec (.store x) s = .next t
      ∧ (∀ k ≤ x.toNat, t.memRead (s.effAddr k) = s.reg (BitVec.ofNat 4 k))
      ∧ t.i.toNat = (s.i.toNat + x.toNat + 1) % 65536
      ∧ ChangesOnly (fun p => p = .index ∨ ∃ k ≤ x.toNat, p = .byte (s.effAddr k)) s t)
    ∧ (0x0FFF < s.effAddr x.toNat → Raises (.store x) s .memOutOfRange (s.effAddr x.toNat))

/-- R125: FX65 loads V[0..X] from I on, no register above X, and adds X + 1 to I; memory is unchanged; out of
range it raises MemOutOfRange and changes neither. -/
def Obligations.LoadCopiesMemory : Prop :=
  ∀ (x : Nibble) (s : State),
    decode (fmtXNN 0xF x 0x65) = .load x
    ∧ (s.effAddr x.toNat ≤ 0x0FFF → ∃ t, exec (.load x) s = .next t
      ∧ (∀ k ≤ x.toNat, t.reg (BitVec.ofNat 4 k) = s.memRead (s.effAddr k))
      ∧ t.i.toNat = (s.i.toNat + x.toNat + 1) % 65536
      ∧ ChangesOnly (fun p => p = .index ∨ ∃ y : Nibble, y ≤ x ∧ p = .reg y) s t)
    ∧ (0x0FFF < s.effAddr x.toNat → Raises (.load x) s .memOutOfRange (s.effAddr x.toNat))

/-- R124, R125: what FX55 stored, FX65 loads back from the same address, whatever the registers held
meanwhile, and the load leaves memory as the store left it. -/
def Obligations.StoreThenLoadRestores : Prop :=
  ∀ (x : Nibble) (s : State) (v : Vector Byte 16), s.effAddr x.toNat ≤ 0x0FFF →
    ∃ t u, exec (.store x) s = .next t ∧ exec (.load x) { t with i := s.i, v := v } = .next u
      ∧ (∀ y : Nibble, y ≤ x → u.reg y = s.reg y) ∧ u.i = t.i ∧ u.mem = t.mem

/-- R51, R54: two bytes that FX55 stores are the word the very next fetch reads, if PC is there. -/
def Obligations.StoredBytesAreFetched : Prop :=
  ∀ (x : Nibble) (s : State) (k : Nat), s.effAddr x.toNat ≤ 0x0FFF → k < x.toNat → s.pc.toNat = s.effAddr k →
    ∃ t, exec (.store x) s = .next t
      ∧ t.fetchWord = some (wordOfBytes (s.reg (BitVec.ofNat 4 k)) (s.reg (BitVec.ofNat 4 (k + 1))))

/-- R40, R51 with log 9: memory in the model's canonical form is determined by what reads of it give, so equal memories are equal
data. -/
def Obligations.MemoryIsItsReads : Prop :=
  ∀ (bg : Nat → Byte) (m m' : Memory), Memory.wf bg m → Memory.wf bg m' →
    (∀ a, Memory.read bg m a = Memory.read bg m' a) → m = m'

/-! ## Display (43_display.md) -/

/-- R130: every pixel is 0 afterwards, and nothing but the display changes. -/
def Obligations.ClsClearsEveryPixel : Prop :=
  ∀ s : State, (∀ w, decode w = .cls ↔ w = 0x00E0)
    ∧ ∃ t, exec .cls s = .next t ∧ (∀ y x, y < 32 → x < 64 → Display.pixel t.disp y x = false)
    ∧ ChangesOnly (fun p => p = .display) s t

/-- R131, R132, R133: DXYN toggles exactly the pixels the clipped sprite sets, and VF says whether one of them
was lit; nothing else changes. Where a byte of the sprite lies above 0x0FFF it raises MemOutOfRange and changes
neither. -/
def Obligations.DrawTogglesTheSprite : Prop :=
  ∀ (x y n : Nibble) (s : State),
    decode (fmtXYN 0xD x y n) = .drw x y n
    ∧ (n = 0 ∨ s.effAddr (n.toNat - 1) ≤ 0x0FFF → ∃ t, exec (.drw x y n) s = .next t
      ∧ (∀ py px, py < 32 → px < 64 →
          (Display.pixel t.disp py px ≠ Display.pixel s.disp py px ↔ SpriteSets s x y n py px))
      ∧ (t.reg vf = 1 ∨ t.reg vf = 0)
      ∧ (t.reg vf = 1 ↔ ∃ py px, SpriteSets s x y n py px ∧ Display.pixel s.disp py px = true)
      ∧ ChangesOnly (fun p => p = .display ∨ p = .reg vf) s t)
    ∧ (n ≠ 0 ∧ 0x0FFF < s.effAddr (n.toNat - 1) →
        Raises (.drw x y n) s .memOutOfRange (s.effAddr (n.toNat - 1)))

/-- R131, R135: the same sprite drawn twice at the same place restores the display; where the first draw found
it dark, the second reports a collision exactly when the sprite has a 1 bit inside the display. The position
registers are not VF, which the first draw writes. -/
def Obligations.DrawTwiceRestores : Prop :=
  ∀ (x y n : Nibble) (s : State), x ≠ vf → y ≠ vf → (n = 0 ∨ s.effAddr (n.toNat - 1) ≤ 0x0FFF) →
    ∃ t u, exec (.drw x y n) s = .next t ∧ exec (.drw x y n) t = .next u ∧ u.disp = s.disp
      ∧ ((∀ py px, Display.pixel s.disp py px = false) →
          (t.reg vf = 0 ∧ (u.reg vf = 1 ↔ ∃ py px, SpriteSets s x y n py px)))

/-! ## Keypad and timers (44_keypad_timer.md) -/

/-- R140, R141: the key skips look at the tick's snapshot and change nothing but PC; above 15 they raise
KeyIndexOutOfRange and change nothing else. -/
def Obligations.KeySkipsReadTheSnapshot : Prop :=
  ∀ (x : Nibble) (s : State),
    decode (fmtXNN 0xE x 0x9E) = .skp x ∧ decode (fmtXNN 0xE x 0xA1) = .sknp x
    ∧ ((s.reg x).toNat ≤ 15 →
      (∃ t, exec (.skp x) s = .next t
        ∧ t.pc = (if s.keys.getLsbD (s.reg x).toNat = true then s.pc + 2 else s.pc)
        ∧ ChangesOnly (fun p => p = .pc) s t)
      ∧ (∃ t, exec (.sknp x) s = .next t
        ∧ t.pc = (if s.keys.getLsbD (s.reg x).toNat = true then s.pc else s.pc + 2)
        ∧ ChangesOnly (fun p => p = .pc) s t))
    ∧ (15 < (s.reg x).toNat →
      Raises (.skp x) s .keyIndexOutOfRange (s.reg x).toNat
      ∧ Raises (.sknp x) s .keyIndexOutOfRange (s.reg x).toNat)

/-- R142, R143, R144: the timer moves, each writing its one destination. -/
def Obligations.TimerMovesCopy : Prop :=
  ∀ (x : Nibble) (s : State),
    decode (fmtXNN 0xF x 0x07) = .ldVxDT x ∧ decode (fmtXNN 0xF x 0x15) = .ldDTVx x
    ∧ decode (fmtXNN 0xF x 0x18) = .ldSTVx x
    ∧ (∃ t, exec (.ldVxDT x) s = .next t ∧ t.reg x = s.dt ∧ ChangesOnly (fun p => p = .reg x) s t)
    ∧ (∃ t, exec (.ldDTVx x) s = .next t ∧ t.dt = s.reg x ∧ ChangesOnly (fun p => p = .delay) s t)
    ∧ (∃ t, exec (.ldSTVx x) s = .next t ∧ t.st = s.reg x ∧ ChangesOnly (fun p => p = .sound) s t)

/-- R143, R144: a value written to a timer runs down by one at the head of each later tick, to 0 and no further;
the trigger is 1 on the heads of the first `n - 1` ticks after `n` was written to ST, and the write itself does not
drive it. -/
def Obligations.WrittenTimersRunDown : Prop :=
  ∀ (x : Nibble) (s : State) (ks : List (BitVec 16)),
    (∃ t, exec (.ldDTVx x) s = .next t ∧ (tickHeads ks t).dt.toNat = (s.reg x).toNat - ks.length)
    ∧ (∃ t, exec (.ldSTVx x) s = .next t ∧ t.audio = s.audio
      ∧ (tickHeads ks t).st.toNat = (s.reg x).toNat - ks.length
      ∧ (ks ≠ [] → ((tickHeads ks t).audio = true ↔ ks.length < (s.reg x).toNat)))

/-- R145 with log 3: FX0A draws one key-wait sample, a free value; with a key down the key goes to V[X] and PC
stays, with none PC goes back by 2 and V[X] stays. Holds whatever the sample is. -/
def Obligations.KeyWaitTakesOneSample : Prop :=
  ∀ (x : Nibble) (s : State), decode (fmtXNN 0xF x 0x0A) = .ldVxK x ∧ ∃ t, exec (.ldVxK x) s = .next t
    ∧ (t.reg x).toNat
        = (if (Config.keyWait s.kwNo).valid then (Config.keyWait s.kwNo).key.toNat else (s.reg x).toNat)
    ∧ t.pc = (if (Config.keyWait s.kwNo).valid then s.pc else s.pc - 2)
    ∧ t.kwNo = s.kwNo + 1
    ∧ ChangesOnly (fun p => p = .reg x ∨ p = .pc ∨ p = .kwNo) s t

/-- R146 with log 3: a step that runs FX0A leaves PC at the instruction while no key is down, and moves past it
when one is; beside that only IR, the slot and the sample count change. -/
def Obligations.KeyWaitHoldsTheProgram : Prop :=
  ∀ (x : Nibble) (w : Word) (s : State), s.fault = none → s.fetchWord = some w → decode w = .ldVxK x →
    ∃ t, instrStep s = .next t ∧ t.ir = w
      ∧ t.pc = (if (Config.keyWait s.kwNo).valid then s.pc + 2 else s.pc)
      ∧ (∀ y, t.reg y = if (Config.keyWait s.kwNo).valid ∧ y = x
          then (Config.keyWait s.kwNo).key.setWidth 8 else s.reg y)
      ∧ ChangesOnly (fun p => p = .reg x ∨ p = .pc ∨ p = .ir ∨ p = .slots ∨ p = .kwNo) s t

/-! ## The engine (45_engine.md) -/

/-- R159: where the bytes at PC decode to an instruction, a step is that instruction executed in the state the
fetch leaves. Before the fetch the step opens the next tick if the last one's budget is spent; after a fault it
undoes everything but the record. The opening of a tick inside a step is the model's choice (log 1). -/
def Obligations.StepRunsTheDecodedInstruction : Prop :=
  ∀ (s t : State) (i : Instr), s.fault = none → (s.slotsLeft ≠ 0 ∨ s.ipt ≠ 0) → s.pc.toNat ≤ 0x0FFE →
    decodeBytes [s.memRead s.pc.toNat, s.memRead (s.pc.toNat + 1)] = .ok (i, []) →
    exec i (s.atSlot.fetched (wordOfBytes (s.memRead s.pc.toNat) (s.memRead (s.pc.toNat + 1)))) = .next t →
    (s.slotsLeft ≠ 0 → s.atSlot = s)
    ∧ (s.slotsLeft = 0 → s.atSlot = s.openTick (Config.keysIn s.tickNo))
    ∧ (t.fault = none → step s = .next t)
    ∧ (∀ r, t.fault = some r → step s = .next { s.atSlot with fault := some r, slotsLeft := 0 })

/-- R43: a fetch reads the two bytes at PC, the byte at the lower address the high one, whatever the parity of
PC; above 0x0FFE it reads nothing. -/
def Obligations.FetchIsBigEndian : Prop :=
  ∀ s : State,
    (s.pc.toNat ≤ 0x0FFE → ∃ w, s.fetchWord = some w
      ∧ w.toNat = 256 * (s.memRead s.pc.toNat).toNat + (s.memRead (s.pc.toNat + 1)).toNat)
    ∧ (0x0FFE < s.pc.toNat → s.fetchWord = none)

/-- R159, R183: a fetch with PC above 0x0FFE raises FetchOutOfRange; the record holds PC and the old IR, and but
for the opening of the tick, which is the model's choice (log 1), nothing else changes. -/
def Obligations.FetchBeyondMemoryFaults : Prop :=
  ∀ s : State, s.fault = none → (s.slotsLeft ≠ 0 ∨ s.ipt ≠ 0) → 0x0FFE < s.pc.toNat →
    ∃ t, step s = .next t
      ∧ t.fault = some { cause := .fetchOutOfRange, pc := s.pc, ir := s.ir, info := s.pc.toNat }
      ∧ t.slotsLeft = 0 ∧ ChangesOnly (fun p => p = .fault ∨ p = .slots) s.atSlot t

/-- R160, R180: from every state a step answers a next state: nothing is refused, and a fault is a state (log 6:
that a fault is no outcome of its own is the model's choice). -/
def Obligations.EveryStepAnswersNext : Prop := ∀ s : State, ∃ t, step s = .next t

/-- R183: faults are precise. A step that raises one leaves the state as it was before the instruction was
fetched, but for the record, which holds the instruction's address and its word (for a fetch fault the old
IR), and for the tick, which ends. The step's own opening of a tick is the model's choice (log 1). -/
def Obligations.FaultsArePrecise : Prop :=
  ∀ (s t : State) (r : FaultRecord), s.fault = none → step s = .next t → t.fault = some r →
    r.pc = s.pc ∧ t.pc = s.pc ∧ t.ir = s.ir ∧ t.slotsLeft = 0
    ∧ (r.cause = .fetchOutOfRange → s.fetchWord = none ∧ r.ir = s.ir)
    ∧ (r.cause ≠ .fetchOutOfRange → s.fetchWord = some r.ir)
    ∧ ChangesOnly (fun p => p = .fault ∨ p = .slots) s.atSlot t

/-- R181: the five causes and their codes; from every unfaulted state the step of an instruction completes, and it
raises a fault exactly on the conditions of the table, with the code and the value the table gives: no other
condition faults. -/
def Obligations.FaultsAreThoseOfTheTable : Prop :=
  (Fault.code .stackUnderflow = 1 ∧ Fault.code .stackOverflow = 2 ∧ Fault.code .fetchOutOfRange = 3
    ∧ Fault.code .memOutOfRange = 4 ∧ Fault.code .keyIndexOutOfRange = 5)
  ∧ ∀ s : State, s.fault = none → ∃ t, instrStep s = .next t
    ∧ (s.fetchWord = none ↔ 0x0FFE < s.pc.toNat)
    ∧ (s.fetchWord = none → t.fault.map (fun r => (r.cause.code, r.info)) = some (3, s.pc.toNat))
    ∧ (∀ w, s.fetchWord = some w →
        t.fault.map (fun r => (r.cause.code, r.info)) = raisedBy (decode w) (s.fetched w))

/-- R119, R183 with 00_scope.md R7: an instruction that raises a fault has written nothing else: every rule
checks before it writes. That the slots of its tick are dropped with it is the model's form of R183 (log 1). -/
def Obligations.RaisingInstructionsWriteNothing : Prop :=
  ∀ (i : Instr) (s t : State), s.fault = none → exec i s = .next t → t.fault ≠ none →
    ChangesOnly (fun p => p = .fault ∨ p = .slots) s t ∧ tableIndex i ∈ writersOf .fault

/-- First clause, R157 and R184: the host's tick of a faulted machine changes nothing and drives the trigger to 0.
Second clause, the model's choice (log 1, DESIGN CHOICE): a `step` of a faulted machine is such an idle tick. The
rules speak of the host's tick alone, and never run `Step` on a faulted machine. -/
def Obligations.FaultedMachineIgnoresTicks : Prop :=
  ∀ (s : State) (k : BitVec 16), s.fault ≠ none →
    (∃ t, tick k s = .next t ∧ t.audio = false ∧ ChangesOnly (fun p => p = .audio) s t)
    ∧ (∃ t, step s = .next t ∧ t.audio = false ∧ ChangesOnly (fun p => p = .audio) s t)

/-- R24, R184: of the host's requests only power_on, reset and load_rom clear FAULT; the others keep the record
itself. -/
def Obligations.OnlyResetsClearTheFault : Prop :=
  ∀ (s t : State) (r : FaultRecord) (e : Event), s.fault = some r → hostEvent e s = .next t →
    (t.fault = some r ∨ t.fault = none)
    ∧ (t.fault = none ↔ e = .powerOn ∨ e = .reset ∨ ∃ rom, e = .loadRom rom)

/-- R184: a run that ends without a fault met none on the way. That it is a run of `step`, which opens its own ticks
and idles once faulted, is the model's choice (log 1). -/
def Obligations.SafeEndMeansSafeRun : Prop :=
  ∀ (k : Nat) (s t : State), core.run k s = .next t → t.fault = none → SafeRun k s

/-- R157, R162 with log 1: a tick the host requests at a tick boundary is at most IPT steps of the machine, and
exactly IPT where none faults (one, if IPT is 0, log 11); it leaves no slot open. -/
def Obligations.TickIsItsSlots : Prop :=
  ∀ s : State, s.fault = none → s.slotsLeft = 0 →
    ∃ k t, k ≤ max 1 s.ipt ∧ tick (Config.keysIn s.tickNo) s = .next t ∧ core.run k s = .next t
      ∧ (t.fault = none → k = max 1 s.ipt) ∧ t.slotsLeft = 0

/-- R155: the trigger is 1 exactly when ST is not 0 after the tick's decrement, whatever the instructions of the
tick write to ST, and 0 on a tick of a faulted machine. -/
def Obligations.TriggerFollowsSoundTimer : Prop :=
  ∀ (s : State) (k : BitVec 16),
    (s.fault = none → ∃ t, tick k s = .next t ∧ (t.audio = true ↔ 1 < s.st.toNat))
    ∧ (s.fault ≠ none → ∃ t, tick k s = .next t ∧ t.audio = false)

/-- KEYS, by R22, R152 and R158: the snapshot after a tick is the key vector of that tick: it is taken once, and no
instruction of the tick changes it. The clause on `tickNo` is about the model's own count of ticks (log 4, DESIGN
CHOICE), which numbers the free key vectors: the spec has no such counter, and no rule is cited for it. -/
def Obligations.SnapshotHoldsForTheTick : Prop :=
  ∀ (s : State) (k : BitVec 16), s.fault = none →
    ∃ t, tick k s = .next t ∧ t.keys = k ∧ t.tickNo = s.tickNo + 1

/-- R157, R189: the head of a tick takes one from each nonzero timer, independently, and opens the whole budget;
beside the timers, the trigger, the snapshot and the budget nothing changes. The head as a state of its own, and the
budget as a field, are the model's choice (log 1), and so is the count of ticks, which may change too (log 4). -/
def Obligations.TimersCountDownOncePerTick : Prop :=
  ∀ (s : State) (k : BitVec 16),
    (s.openTick k).dt.toNat = s.dt.toNat - 1 ∧ (s.openTick k).st.toNat = s.st.toNat - 1
    ∧ (s.openTick k).slotsLeft = s.ipt
    ∧ ChangesOnly (fun p => p = .delay ∨ p = .sound ∨ p = .audio ∨ p = .keys ∨ p = .slots ∨ p = .tickNo) s
        (s.openTick k)

/-! ## Whole-machine rules -/

/-- An instruction changes a piece of the state only if `writersOf` names it among the piece's writers. For V, I, PC,
the stack, DT, ST, the display, KEYS, IR and memory the writers are those of 10_state.md's "written by" column (R13,
R20, R21, R22, R23, R26, R126); for FAULT, whose row says "a faulting step", they are the eight that R181 lets
raise; the parameters have none (R4). For the model's own fields the table has no row, and the lists are the model's
choice: the slots (log 1), the last trigger (log 7), the counts of ticks (log 4), of random bytes (log 2) and of
key-wait samples (log 3). -/
def Obligations.OnlyTheListedInstructionsWrite : Prop :=
  ∀ (i : Instr) (s t : State) (p : Part), exec i s = .next t → tableIndex i ∉ writersOf p → p.Same s t

/-- R13, R14: VF changes only by the six instructions that write it as a flag, or as an ordinary destination by
one whose X field is 0xF; and those six, where they do not fault, leave 0 or 1 in it. -/
def Obligations.FlagWritersOfVf : Prop :=
  ∀ (i : Instr) (s t : State), exec i s = .next t →
    (t.reg vf ≠ s.reg vf → tableIndex i ∈ [14, 15, 16, 17, 18, 23] ∨ xOf (encode i) = vf)
    ∧ (tableIndex i ∈ [14, 15, 16, 17, 18, 23] → t.fault = none → t.reg vf = 0 ∨ t.reg vf = 1)

/-- R4 with log 5: the parameters of a machine stay what they are: neither a step nor a request of the host changes IPT,
STACK_DEPTH or FONT. -/
def Obligations.ParametersStay : Prop :=
  (∀ s t : State, step s = .next t → t.params = s.params)
  ∧ ∀ (e : Event) (s t : State), hostEvent e s = .next t → t.params = s.params

/-- The invariant (memory canonical and inside the address space, the slots within the budget, a coherent fault
record) holds right after reset. The canonical form (log 9) and the slots (log 1) are the model's, and the
parameters are fields with the spec's defaults by the model's choice (log 5). -/
def Obligations.ResetMeetsTheInvariant : Prop :=
  ∀ p : Params, (State.powerOn p).Inv
    ∧ State.reset = State.powerOn { ipt := 6, stackDepth := 16, font := Config.defaultFont }

/-- Every step keeps the invariant, from every state that meets it: its clauses on the address space and on the fault
record are R40, R44, R181 and R183; those on the canonical form (log 9) and the slots (log 1) are the model's. -/
def Obligations.StepKeepsTheInvariant : Prop :=
  ∀ s t : State, s.Inv → step s = .next t → t.Inv

/-- Every request of the host keeps the same invariant, with the model's own clauses in it (logs 1, 9). -/
def Obligations.HostEventsKeepTheInvariant : Prop :=
  ∀ (e : Event) (s t : State), s.Inv → hostEvent e s = .next t → t.Inv

/-! ## Reset, load (70_reset_and_hazards.md) -/

/-- R210: after power_on every register, the stack, the keys, the display and memory outside the font are 0, PC
is 0x0200, and the font is in place. -/
def Obligations.PowerOnValues : Prop :=
  ∀ s : State, ∃ t, hostEvent .powerOn s = .next t
    ∧ (∀ x, t.reg x = 0) ∧ t.i = 0 ∧ t.pc = 0x0200 ∧ t.stack.sp = 0 ∧ (∀ a ∈ t.stack.entries, a = 0)
    ∧ t.stack.depth = s.stack.depth
    ∧ t.dt = 0 ∧ t.st = 0 ∧ t.keys = 0 ∧ t.ir = 0 ∧ t.fault = none
    ∧ (∀ y x, Display.pixel t.disp y x = false)
    ∧ (∀ (a : Nat) (h : a < 80), t.memRead a = s.font[a]) ∧ (∀ a, 80 ≤ a → t.memRead a = 0)

/-- R31, R32, R211: reset, also of a faulted machine: the values of R31, the 80 font bytes restored, every other
byte of memory as it was. -/
def Obligations.ResetValues : Prop :=
  ∀ s : State, ∃ t, hostEvent .reset s = .next t
    ∧ (∀ x, t.reg x = 0) ∧ t.i = 0 ∧ t.pc = 0x0200 ∧ t.stack.sp = 0 ∧ (∀ a ∈ t.stack.entries, a = 0)
    ∧ t.stack.depth = s.stack.depth
    ∧ t.dt = 0 ∧ t.st = 0 ∧ t.keys = 0 ∧ t.ir = 0 ∧ t.fault = none
    ∧ (∀ y x, Display.pixel t.disp y x = false)
    ∧ (∀ (a : Nat) (h : a < 80), t.memRead a = s.font[a]) ∧ (∀ a, 80 ≤ a → t.memRead a = s.memRead a)

/-- R212: load_rom is reset, then the first 3584 bytes of the ROM from 0x200 on; the rest of the ROM is dropped,
and every other byte of memory is as reset leaves it. -/
def Obligations.LoadRomCopiesAndTruncates : Prop :=
  ∀ (s : State) (rom : List Byte), ∃ t u, hostEvent (.loadRom rom) s = .next t ∧ hostEvent .reset s = .next u
    ∧ (∀ j (h : j < rom.length), j < 3584 → t.memRead (0x200 + j) = rom[j])
    ∧ ChangesOnly (fun p => ∃ j < min rom.length 3584, p = .byte (0x200 + j)) u t

/-! ## Disassembler (46_disassembler.md) -/

/-- R171, R172: the lines of a request are those of the words at lo, lo + 2, ... up to the last address not
above hi, in that order; a request with hi above 0x0FFE is refused; neither changes any state. -/
def Obligations.DisassemblyWalksTheRange : Prop :=
  ∀ (names : Vector String 35) (s : State) (lo hi : Word),
    hostEvent (.disassemble lo hi) s = .next s
    ∧ (0x0FFE < hi.toNat → disassemble names s lo hi = none)
    ∧ (hi.toNat ≤ 0x0FFE → ∃ ls, disassemble names s lo hi = some ls
      ∧ (∀ k, k < ls.length ↔ lo.toNat + 2 * k ≤ hi.toNat)
      ∧ ∀ k (h : k < ls.length), ls[k].addr.toNat = lo.toNat + 2 * k
          ∧ ls[k].text = lineText names ls[k].addr (tableIndex (decode (s.wordAt (lo.toNat + 2 * k)))))

/-- R72, R175: the text of a line determines the table entry the decoder gives for the bytes at its address, as
the 35 strings are pairwise distinct; the default strings are. -/
def Obligations.DisassemblyRoundTrip : Prop :=
  (∀ e f : Fin 35, Config.mnemonics[e] = Config.mnemonics[f] → e = f)
  ∧ ∀ (names : Vector String 35) (s : State) (lo hi : Word) (ls : List Line),
      (∀ e f : Fin 35, names[e] = names[f] → e = f) → disassemble names s lo hi = some ls →
      ∀ l ∈ ls, ∀ e : Fin 35, l.text = "$" ++ hexAddr l.addr ++ ": " ++ names[e]
        ↔ e = tableIndex (decode (s.wordAt l.addr.toNat))
end

