-- ==== Sys2Proof/Laws/State.lean ====
section
/-! SUPPORT. What each update of State does to each field: one lemma per field per update, true by rfl, and the
same for the two accessors `reg` and `memRead` where an update leaves them alone. -/

namespace Sys2Proof.Machine

/-! ### setReg -/

@[simp] theorem State.setReg_v (s : State) (x : Nibble) (b : Byte) :
    (s.setReg x b).v = s.v.set x.toNat b x.isLt := rfl
@[simp] theorem State.setReg_i (s : State) (x : Nibble) (b : Byte) : (s.setReg x b).i = s.i := rfl
@[simp] theorem State.setReg_pc (s : State) (x : Nibble) (b : Byte) : (s.setReg x b).pc = s.pc := rfl
@[simp] theorem State.setReg_stack (s : State) (x : Nibble) (b : Byte) : (s.setReg x b).stack = s.stack := rfl
@[simp] theorem State.setReg_dt (s : State) (x : Nibble) (b : Byte) : (s.setReg x b).dt = s.dt := rfl
@[simp] theorem State.setReg_st (s : State) (x : Nibble) (b : Byte) : (s.setReg x b).st = s.st := rfl
@[simp] theorem State.setReg_disp (s : State) (x : Nibble) (b : Byte) : (s.setReg x b).disp = s.disp := rfl
@[simp] theorem State.setReg_keys (s : State) (x : Nibble) (b : Byte) : (s.setReg x b).keys = s.keys := rfl
@[simp] theorem State.setReg_ir (s : State) (x : Nibble) (b : Byte) : (s.setReg x b).ir = s.ir := rfl
@[simp] theorem State.setReg_fault (s : State) (x : Nibble) (b : Byte) : (s.setReg x b).fault = s.fault := rfl
@[simp] theorem State.setReg_mem (s : State) (x : Nibble) (b : Byte) : (s.setReg x b).mem = s.mem := rfl
@[simp] theorem State.setReg_font (s : State) (x : Nibble) (b : Byte) : (s.setReg x b).font = s.font := rfl
@[simp] theorem State.setReg_ipt (s : State) (x : Nibble) (b : Byte) : (s.setReg x b).ipt = s.ipt := rfl
@[simp] theorem State.setReg_slotsLeft (s : State) (x : Nibble) (b : Byte) :
    (s.setReg x b).slotsLeft = s.slotsLeft := rfl
@[simp] theorem State.setReg_audio (s : State) (x : Nibble) (b : Byte) : (s.setReg x b).audio = s.audio := rfl
@[simp] theorem State.setReg_tickNo (s : State) (x : Nibble) (b : Byte) : (s.setReg x b).tickNo = s.tickNo := rfl
@[simp] theorem State.setReg_rndNo (s : State) (x : Nibble) (b : Byte) : (s.setReg x b).rndNo = s.rndNo := rfl
@[simp] theorem State.setReg_kwNo (s : State) (x : Nibble) (b : Byte) : (s.setReg x b).kwNo = s.kwNo := rfl
@[simp] theorem State.setReg_memRead (s : State) (x : Nibble) (b : Byte) (a' : Nat) : (s.setReg x b).memRead a' = s.memRead a' := rfl
@[simp] theorem State.setReg_effAddr (s : State) (x : Nibble) (b : Byte) (j : Nat) : (s.setReg x b).effAddr j = s.effAddr j := rfl
@[simp] theorem State.setReg_params (s : State) (x : Nibble) (b : Byte) : (s.setReg x b).params = s.params := rfl

/-! ### setIndex -/

@[simp] theorem State.setIndex_v (s : State) (w : Word) : (s.setIndex w).v = s.v := rfl
@[simp] theorem State.setIndex_i (s : State) (w : Word) : (s.setIndex w).i = w := rfl
@[simp] theorem State.setIndex_pc (s : State) (w : Word) : (s.setIndex w).pc = s.pc := rfl
@[simp] theorem State.setIndex_stack (s : State) (w : Word) : (s.setIndex w).stack = s.stack := rfl
@[simp] theorem State.setIndex_dt (s : State) (w : Word) : (s.setIndex w).dt = s.dt := rfl
@[simp] theorem State.setIndex_st (s : State) (w : Word) : (s.setIndex w).st = s.st := rfl
@[simp] theorem State.setIndex_disp (s : State) (w : Word) : (s.setIndex w).disp = s.disp := rfl
@[simp] theorem State.setIndex_keys (s : State) (w : Word) : (s.setIndex w).keys = s.keys := rfl
@[simp] theorem State.setIndex_ir (s : State) (w : Word) : (s.setIndex w).ir = s.ir := rfl
@[simp] theorem State.setIndex_fault (s : State) (w : Word) : (s.setIndex w).fault = s.fault := rfl
@[simp] theorem State.setIndex_mem (s : State) (w : Word) : (s.setIndex w).mem = s.mem := rfl
@[simp] theorem State.setIndex_font (s : State) (w : Word) : (s.setIndex w).font = s.font := rfl
@[simp] theorem State.setIndex_ipt (s : State) (w : Word) : (s.setIndex w).ipt = s.ipt := rfl
@[simp] theorem State.setIndex_slotsLeft (s : State) (w : Word) : (s.setIndex w).slotsLeft = s.slotsLeft := rfl
@[simp] theorem State.setIndex_audio (s : State) (w : Word) : (s.setIndex w).audio = s.audio := rfl
@[simp] theorem State.setIndex_tickNo (s : State) (w : Word) : (s.setIndex w).tickNo = s.tickNo := rfl
@[simp] theorem State.setIndex_rndNo (s : State) (w : Word) : (s.setIndex w).rndNo = s.rndNo := rfl
@[simp] theorem State.setIndex_kwNo (s : State) (w : Word) : (s.setIndex w).kwNo = s.kwNo := rfl
@[simp] theorem State.setIndex_reg (s : State) (w : Word) (y : Nibble) : (s.setIndex w).reg y = s.reg y := rfl
@[simp] theorem State.setIndex_memRead (s : State) (w : Word) (a' : Nat) : (s.setIndex w).memRead a' = s.memRead a' := rfl
@[simp] theorem State.setIndex_params (s : State) (w : Word) : (s.setIndex w).params = s.params := rfl

/-! ### setPc -/

@[simp] theorem State.setPc_v (s : State) (w : Word) : (s.setPc w).v = s.v := rfl
@[simp] theorem State.setPc_i (s : State) (w : Word) : (s.setPc w).i = s.i := rfl
@[simp] theorem State.setPc_pc (s : State) (w : Word) : (s.setPc w).pc = w := rfl
@[simp] theorem State.setPc_stack (s : State) (w : Word) : (s.setPc w).stack = s.stack := rfl
@[simp] theorem State.setPc_dt (s : State) (w : Word) : (s.setPc w).dt = s.dt := rfl
@[simp] theorem State.setPc_st (s : State) (w : Word) : (s.setPc w).st = s.st := rfl
@[simp] theorem State.setPc_disp (s : State) (w : Word) : (s.setPc w).disp = s.disp := rfl
@[simp] theorem State.setPc_keys (s : State) (w : Word) : (s.setPc w).keys = s.keys := rfl
@[simp] theorem State.setPc_ir (s : State) (w : Word) : (s.setPc w).ir = s.ir := rfl
@[simp] theorem State.setPc_fault (s : State) (w : Word) : (s.setPc w).fault = s.fault := rfl
@[simp] theorem State.setPc_mem (s : State) (w : Word) : (s.setPc w).mem = s.mem := rfl
@[simp] theorem State.setPc_font (s : State) (w : Word) : (s.setPc w).font = s.font := rfl
@[simp] theorem State.setPc_ipt (s : State) (w : Word) : (s.setPc w).ipt = s.ipt := rfl
@[simp] theorem State.setPc_slotsLeft (s : State) (w : Word) : (s.setPc w).slotsLeft = s.slotsLeft := rfl
@[simp] theorem State.setPc_audio (s : State) (w : Word) : (s.setPc w).audio = s.audio := rfl
@[simp] theorem State.setPc_tickNo (s : State) (w : Word) : (s.setPc w).tickNo = s.tickNo := rfl
@[simp] theorem State.setPc_rndNo (s : State) (w : Word) : (s.setPc w).rndNo = s.rndNo := rfl
@[simp] theorem State.setPc_kwNo (s : State) (w : Word) : (s.setPc w).kwNo = s.kwNo := rfl
@[simp] theorem State.setPc_reg (s : State) (w : Word) (y : Nibble) : (s.setPc w).reg y = s.reg y := rfl
@[simp] theorem State.setPc_memRead (s : State) (w : Word) (a' : Nat) : (s.setPc w).memRead a' = s.memRead a' := rfl
@[simp] theorem State.setPc_effAddr (s : State) (w : Word) (j : Nat) : (s.setPc w).effAddr j = s.effAddr j := rfl
@[simp] theorem State.setPc_params (s : State) (w : Word) : (s.setPc w).params = s.params := rfl

/-! ### setDelay -/

@[simp] theorem State.setDelay_v (s : State) (b : Byte) : (s.setDelay b).v = s.v := rfl
@[simp] theorem State.setDelay_i (s : State) (b : Byte) : (s.setDelay b).i = s.i := rfl
@[simp] theorem State.setDelay_pc (s : State) (b : Byte) : (s.setDelay b).pc = s.pc := rfl
@[simp] theorem State.setDelay_stack (s : State) (b : Byte) : (s.setDelay b).stack = s.stack := rfl
@[simp] theorem State.setDelay_dt (s : State) (b : Byte) : (s.setDelay b).dt = b := rfl
@[simp] theorem State.setDelay_st (s : State) (b : Byte) : (s.setDelay b).st = s.st := rfl
@[simp] theorem State.setDelay_disp (s : State) (b : Byte) : (s.setDelay b).disp = s.disp := rfl
@[simp] theorem State.setDelay_keys (s : State) (b : Byte) : (s.setDelay b).keys = s.keys := rfl
@[simp] theorem State.setDelay_ir (s : State) (b : Byte) : (s.setDelay b).ir = s.ir := rfl
@[simp] theorem State.setDelay_fault (s : State) (b : Byte) : (s.setDelay b).fault = s.fault := rfl
@[simp] theorem State.setDelay_mem (s : State) (b : Byte) : (s.setDelay b).mem = s.mem := rfl
@[simp] theorem State.setDelay_font (s : State) (b : Byte) : (s.setDelay b).font = s.font := rfl
@[simp] theorem State.setDelay_ipt (s : State) (b : Byte) : (s.setDelay b).ipt = s.ipt := rfl
@[simp] theorem State.setDelay_slotsLeft (s : State) (b : Byte) : (s.setDelay b).slotsLeft = s.slotsLeft := rfl
@[simp] theorem State.setDelay_audio (s : State) (b : Byte) : (s.setDelay b).audio = s.audio := rfl
@[simp] theorem State.setDelay_tickNo (s : State) (b : Byte) : (s.setDelay b).tickNo = s.tickNo := rfl
@[simp] theorem State.setDelay_rndNo (s : State) (b : Byte) : (s.setDelay b).rndNo = s.rndNo := rfl
@[simp] theorem State.setDelay_kwNo (s : State) (b : Byte) : (s.setDelay b).kwNo = s.kwNo := rfl
@[simp] theorem State.setDelay_reg (s : State) (b : Byte) (y : Nibble) : (s.setDelay b).reg y = s.reg y := rfl
@[simp] theorem State.setDelay_memRead (s : State) (b : Byte) (a' : Nat) : (s.setDelay b).memRead a' = s.memRead a' := rfl
@[simp] theorem State.setDelay_effAddr (s : State) (b : Byte) (j : Nat) : (s.setDelay b).effAddr j = s.effAddr j := rfl
@[simp] theorem State.setDelay_params (s : State) (b : Byte) : (s.setDelay b).params = s.params := rfl

/-! ### setSound -/

@[simp] theorem State.setSound_v (s : State) (b : Byte) : (s.setSound b).v = s.v := rfl
@[simp] theorem State.setSound_i (s : State) (b : Byte) : (s.setSound b).i = s.i := rfl
@[simp] theorem State.setSound_pc (s : State) (b : Byte) : (s.setSound b).pc = s.pc := rfl
@[simp] theorem State.setSound_stack (s : State) (b : Byte) : (s.setSound b).stack = s.stack := rfl
@[simp] theorem State.setSound_dt (s : State) (b : Byte) : (s.setSound b).dt = s.dt := rfl
@[simp] theorem State.setSound_st (s : State) (b : Byte) : (s.setSound b).st = b := rfl
@[simp] theorem State.setSound_disp (s : State) (b : Byte) : (s.setSound b).disp = s.disp := rfl
@[simp] theorem State.setSound_keys (s : State) (b : Byte) : (s.setSound b).keys = s.keys := rfl
@[simp] theorem State.setSound_ir (s : State) (b : Byte) : (s.setSound b).ir = s.ir := rfl
@[simp] theorem State.setSound_fault (s : State) (b : Byte) : (s.setSound b).fault = s.fault := rfl
@[simp] theorem State.setSound_mem (s : State) (b : Byte) : (s.setSound b).mem = s.mem := rfl
@[simp] theorem State.setSound_font (s : State) (b : Byte) : (s.setSound b).font = s.font := rfl
@[simp] theorem State.setSound_ipt (s : State) (b : Byte) : (s.setSound b).ipt = s.ipt := rfl
@[simp] theorem State.setSound_slotsLeft (s : State) (b : Byte) : (s.setSound b).slotsLeft = s.slotsLeft := rfl
@[simp] theorem State.setSound_audio (s : State) (b : Byte) : (s.setSound b).audio = s.audio := rfl
@[simp] theorem State.setSound_tickNo (s : State) (b : Byte) : (s.setSound b).tickNo = s.tickNo := rfl
@[simp] theorem State.setSound_rndNo (s : State) (b : Byte) : (s.setSound b).rndNo = s.rndNo := rfl
@[simp] theorem State.setSound_kwNo (s : State) (b : Byte) : (s.setSound b).kwNo = s.kwNo := rfl
@[simp] theorem State.setSound_reg (s : State) (b : Byte) (y : Nibble) : (s.setSound b).reg y = s.reg y := rfl
@[simp] theorem State.setSound_memRead (s : State) (b : Byte) (a' : Nat) : (s.setSound b).memRead a' = s.memRead a' := rfl
@[simp] theorem State.setSound_effAddr (s : State) (b : Byte) (j : Nat) : (s.setSound b).effAddr j = s.effAddr j := rfl
@[simp] theorem State.setSound_params (s : State) (b : Byte) : (s.setSound b).params = s.params := rfl

/-! ### setStack -/

@[simp] theorem State.setStack_v (s : State) (k : CallStack) : (s.setStack k).v = s.v := rfl
@[simp] theorem State.setStack_i (s : State) (k : CallStack) : (s.setStack k).i = s.i := rfl
@[simp] theorem State.setStack_pc (s : State) (k : CallStack) : (s.setStack k).pc = s.pc := rfl
@[simp] theorem State.setStack_stack (s : State) (k : CallStack) : (s.setStack k).stack = k := rfl
@[simp] theorem State.setStack_dt (s : State) (k : CallStack) : (s.setStack k).dt = s.dt := rfl
@[simp] theorem State.setStack_st (s : State) (k : CallStack) : (s.setStack k).st = s.st := rfl
@[simp] theorem State.setStack_disp (s : State) (k : CallStack) : (s.setStack k).disp = s.disp := rfl
@[simp] theorem State.setStack_keys (s : State) (k : CallStack) : (s.setStack k).keys = s.keys := rfl
@[simp] theorem State.setStack_ir (s : State) (k : CallStack) : (s.setStack k).ir = s.ir := rfl
@[simp] theorem State.setStack_fault (s : State) (k : CallStack) : (s.setStack k).fault = s.fault := rfl
@[simp] theorem State.setStack_mem (s : State) (k : CallStack) : (s.setStack k).mem = s.mem := rfl
@[simp] theorem State.setStack_font (s : State) (k : CallStack) : (s.setStack k).font = s.font := rfl
@[simp] theorem State.setStack_ipt (s : State) (k : CallStack) : (s.setStack k).ipt = s.ipt := rfl
@[simp] theorem State.setStack_slotsLeft (s : State) (k : CallStack) : (s.setStack k).slotsLeft = s.slotsLeft := rfl
@[simp] theorem State.setStack_audio (s : State) (k : CallStack) : (s.setStack k).audio = s.audio := rfl
@[simp] theorem State.setStack_tickNo (s : State) (k : CallStack) : (s.setStack k).tickNo = s.tickNo := rfl
@[simp] theorem State.setStack_rndNo (s : State) (k : CallStack) : (s.setStack k).rndNo = s.rndNo := rfl
@[simp] theorem State.setStack_kwNo (s : State) (k : CallStack) : (s.setStack k).kwNo = s.kwNo := rfl
@[simp] theorem State.setStack_reg (s : State) (k : CallStack) (y : Nibble) : (s.setStack k).reg y = s.reg y := rfl
@[simp] theorem State.setStack_memRead (s : State) (k : CallStack) (a' : Nat) : (s.setStack k).memRead a' = s.memRead a' := rfl
@[simp] theorem State.setStack_effAddr (s : State) (k : CallStack) (j : Nat) : (s.setStack k).effAddr j = s.effAddr j := rfl

/-! ### setDisplay -/

@[simp] theorem State.setDisplay_v (s : State) (d : Display) : (s.setDisplay d).v = s.v := rfl
@[simp] theorem State.setDisplay_i (s : State) (d : Display) : (s.setDisplay d).i = s.i := rfl
@[simp] theorem State.setDisplay_pc (s : State) (d : Display) : (s.setDisplay d).pc = s.pc := rfl
@[simp] theorem State.setDisplay_stack (s : State) (d : Display) : (s.setDisplay d).stack = s.stack := rfl
@[simp] theorem State.setDisplay_dt (s : State) (d : Display) : (s.setDisplay d).dt = s.dt := rfl
@[simp] theorem State.setDisplay_st (s : State) (d : Display) : (s.setDisplay d).st = s.st := rfl
@[simp] theorem State.setDisplay_disp (s : State) (d : Display) : (s.setDisplay d).disp = d := rfl
@[simp] theorem State.setDisplay_keys (s : State) (d : Display) : (s.setDisplay d).keys = s.keys := rfl
@[simp] theorem State.setDisplay_ir (s : State) (d : Display) : (s.setDisplay d).ir = s.ir := rfl
@[simp] theorem State.setDisplay_fault (s : State) (d : Display) : (s.setDisplay d).fault = s.fault := rfl
@[simp] theorem State.setDisplay_mem (s : State) (d : Display) : (s.setDisplay d).mem = s.mem := rfl
@[simp] theorem State.setDisplay_font (s : State) (d : Display) : (s.setDisplay d).font = s.font := rfl
@[simp] theorem State.setDisplay_ipt (s : State) (d : Display) : (s.setDisplay d).ipt = s.ipt := rfl
@[simp] theorem State.setDisplay_slotsLeft (s : State) (d : Display) :
    (s.setDisplay d).slotsLeft = s.slotsLeft := rfl
@[simp] theorem State.setDisplay_audio (s : State) (d : Display) : (s.setDisplay d).audio = s.audio := rfl
@[simp] theorem State.setDisplay_tickNo (s : State) (d : Display) : (s.setDisplay d).tickNo = s.tickNo := rfl
@[simp] theorem State.setDisplay_rndNo (s : State) (d : Display) : (s.setDisplay d).rndNo = s.rndNo := rfl
@[simp] theorem State.setDisplay_kwNo (s : State) (d : Display) : (s.setDisplay d).kwNo = s.kwNo := rfl
@[simp] theorem State.setDisplay_reg (s : State) (d : Display) (y : Nibble) : (s.setDisplay d).reg y = s.reg y := rfl
@[simp] theorem State.setDisplay_memRead (s : State) (d : Display) (a' : Nat) : (s.setDisplay d).memRead a' = s.memRead a' := rfl
@[simp] theorem State.setDisplay_effAddr (s : State) (d : Display) (j : Nat) : (s.setDisplay d).effAddr j = s.effAddr j := rfl
@[simp] theorem State.setDisplay_params (s : State) (d : Display) : (s.setDisplay d).params = s.params := rfl

/-! ### setMem -/

@[simp] theorem State.setMem_v (s : State) (m : Memory) : (s.setMem m).v = s.v := rfl
@[simp] theorem State.setMem_i (s : State) (m : Memory) : (s.setMem m).i = s.i := rfl
@[simp] theorem State.setMem_pc (s : State) (m : Memory) : (s.setMem m).pc = s.pc := rfl
@[simp] theorem State.setMem_stack (s : State) (m : Memory) : (s.setMem m).stack = s.stack := rfl
@[simp] theorem State.setMem_dt (s : State) (m : Memory) : (s.setMem m).dt = s.dt := rfl
@[simp] theorem State.setMem_st (s : State) (m : Memory) : (s.setMem m).st = s.st := rfl
@[simp] theorem State.setMem_disp (s : State) (m : Memory) : (s.setMem m).disp = s.disp := rfl
@[simp] theorem State.setMem_keys (s : State) (m : Memory) : (s.setMem m).keys = s.keys := rfl
@[simp] theorem State.setMem_ir (s : State) (m : Memory) : (s.setMem m).ir = s.ir := rfl
@[simp] theorem State.setMem_fault (s : State) (m : Memory) : (s.setMem m).fault = s.fault := rfl
@[simp] theorem State.setMem_mem (s : State) (m : Memory) : (s.setMem m).mem = m := rfl
@[simp] theorem State.setMem_font (s : State) (m : Memory) : (s.setMem m).font = s.font := rfl
@[simp] theorem State.setMem_ipt (s : State) (m : Memory) : (s.setMem m).ipt = s.ipt := rfl
@[simp] theorem State.setMem_slotsLeft (s : State) (m : Memory) : (s.setMem m).slotsLeft = s.slotsLeft := rfl
@[simp] theorem State.setMem_audio (s : State) (m : Memory) : (s.setMem m).audio = s.audio := rfl
@[simp] theorem State.setMem_tickNo (s : State) (m : Memory) : (s.setMem m).tickNo = s.tickNo := rfl
@[simp] theorem State.setMem_rndNo (s : State) (m : Memory) : (s.setMem m).rndNo = s.rndNo := rfl
@[simp] theorem State.setMem_kwNo (s : State) (m : Memory) : (s.setMem m).kwNo = s.kwNo := rfl
@[simp] theorem State.setMem_reg (s : State) (m : Memory) (y : Nibble) : (s.setMem m).reg y = s.reg y := rfl
@[simp] theorem State.setMem_effAddr (s : State) (m : Memory) (j : Nat) : (s.setMem m).effAddr j = s.effAddr j := rfl
@[simp] theorem State.setMem_params (s : State) (m : Memory) : (s.setMem m).params = s.params := rfl

/-! ### memWrite -/

@[simp] theorem State.memWrite_v (s : State) (a : Nat) (b : Byte) : (s.memWrite a b).v = s.v := rfl
@[simp] theorem State.memWrite_i (s : State) (a : Nat) (b : Byte) : (s.memWrite a b).i = s.i := rfl
@[simp] theorem State.memWrite_pc (s : State) (a : Nat) (b : Byte) : (s.memWrite a b).pc = s.pc := rfl
@[simp] theorem State.memWrite_stack (s : State) (a : Nat) (b : Byte) : (s.memWrite a b).stack = s.stack := rfl
@[simp] theorem State.memWrite_dt (s : State) (a : Nat) (b : Byte) : (s.memWrite a b).dt = s.dt := rfl
@[simp] theorem State.memWrite_st (s : State) (a : Nat) (b : Byte) : (s.memWrite a b).st = s.st := rfl
@[simp] theorem State.memWrite_disp (s : State) (a : Nat) (b : Byte) : (s.memWrite a b).disp = s.disp := rfl
@[simp] theorem State.memWrite_keys (s : State) (a : Nat) (b : Byte) : (s.memWrite a b).keys = s.keys := rfl
@[simp] theorem State.memWrite_ir (s : State) (a : Nat) (b : Byte) : (s.memWrite a b).ir = s.ir := rfl
@[simp] theorem State.memWrite_fault (s : State) (a : Nat) (b : Byte) : (s.memWrite a b).fault = s.fault := rfl
@[simp] theorem State.memWrite_mem (s : State) (a : Nat) (b : Byte) :
    (s.memWrite a b).mem = Memory.write (Memory.unlisted s.font) s.mem a b := rfl
@[simp] theorem State.memWrite_font (s : State) (a : Nat) (b : Byte) : (s.memWrite a b).font = s.font := rfl
@[simp] theorem State.memWrite_ipt (s : State) (a : Nat) (b : Byte) : (s.memWrite a b).ipt = s.ipt := rfl
@[simp] theorem State.memWrite_slotsLeft (s : State) (a : Nat) (b : Byte) :
    (s.memWrite a b).slotsLeft = s.slotsLeft := rfl
@[simp] theorem State.memWrite_audio (s : State) (a : Nat) (b : Byte) : (s.memWrite a b).audio = s.audio := rfl
@[simp] theorem State.memWrite_tickNo (s : State) (a : Nat) (b : Byte) : (s.memWrite a b).tickNo = s.tickNo := rfl
@[simp] theorem State.memWrite_rndNo (s : State) (a : Nat) (b : Byte) : (s.memWrite a b).rndNo = s.rndNo := rfl
@[simp] theorem State.memWrite_kwNo (s : State) (a : Nat) (b : Byte) : (s.memWrite a b).kwNo = s.kwNo := rfl
@[simp] theorem State.memWrite_reg (s : State) (a : Nat) (b : Byte) (y : Nibble) : (s.memWrite a b).reg y = s.reg y := rfl
@[simp] theorem State.memWrite_effAddr (s : State) (a : Nat) (b : Byte) (j : Nat) : (s.memWrite a b).effAddr j = s.effAddr j := rfl
@[simp] theorem State.memWrite_params (s : State) (a : Nat) (b : Byte) : (s.memWrite a b).params = s.params := rfl

/-! ### skipIf -/

@[simp] theorem State.skipIf_v (s : State) (c : Bool) : (s.skipIf c).v = s.v := rfl
@[simp] theorem State.skipIf_i (s : State) (c : Bool) : (s.skipIf c).i = s.i := rfl
@[simp] theorem State.skipIf_pc (s : State) (c : Bool) : (s.skipIf c).pc = if c then s.pc + 2 else s.pc := rfl
@[simp] theorem State.skipIf_stack (s : State) (c : Bool) : (s.skipIf c).stack = s.stack := rfl
@[simp] theorem State.skipIf_dt (s : State) (c : Bool) : (s.skipIf c).dt = s.dt := rfl
@[simp] theorem State.skipIf_st (s : State) (c : Bool) : (s.skipIf c).st = s.st := rfl
@[simp] theorem State.skipIf_disp (s : State) (c : Bool) : (s.skipIf c).disp = s.disp := rfl
@[simp] theorem State.skipIf_keys (s : State) (c : Bool) : (s.skipIf c).keys = s.keys := rfl
@[simp] theorem State.skipIf_ir (s : State) (c : Bool) : (s.skipIf c).ir = s.ir := rfl
@[simp] theorem State.skipIf_fault (s : State) (c : Bool) : (s.skipIf c).fault = s.fault := rfl
@[simp] theorem State.skipIf_mem (s : State) (c : Bool) : (s.skipIf c).mem = s.mem := rfl
@[simp] theorem State.skipIf_font (s : State) (c : Bool) : (s.skipIf c).font = s.font := rfl
@[simp] theorem State.skipIf_ipt (s : State) (c : Bool) : (s.skipIf c).ipt = s.ipt := rfl
@[simp] theorem State.skipIf_slotsLeft (s : State) (c : Bool) : (s.skipIf c).slotsLeft = s.slotsLeft := rfl
@[simp] theorem State.skipIf_audio (s : State) (c : Bool) : (s.skipIf c).audio = s.audio := rfl
@[simp] theorem State.skipIf_tickNo (s : State) (c : Bool) : (s.skipIf c).tickNo = s.tickNo := rfl
@[simp] theorem State.skipIf_rndNo (s : State) (c : Bool) : (s.skipIf c).rndNo = s.rndNo := rfl
@[simp] theorem State.skipIf_kwNo (s : State) (c : Bool) : (s.skipIf c).kwNo = s.kwNo := rfl
@[simp] theorem State.skipIf_reg (s : State) (c : Bool) (y : Nibble) : (s.skipIf c).reg y = s.reg y := rfl
@[simp] theorem State.skipIf_memRead (s : State) (c : Bool) (a' : Nat) : (s.skipIf c).memRead a' = s.memRead a' := rfl
@[simp] theorem State.skipIf_effAddr (s : State) (c : Bool) (j : Nat) : (s.skipIf c).effAddr j = s.effAddr j := rfl
@[simp] theorem State.skipIf_params (s : State) (c : Bool) : (s.skipIf c).params = s.params := rfl

/-! ### drawRnd -/

@[simp] theorem State.drawRnd_v (s : State) : (s.drawRnd).v = s.v := rfl
@[simp] theorem State.drawRnd_i (s : State) : (s.drawRnd).i = s.i := rfl
@[simp] theorem State.drawRnd_pc (s : State) : (s.drawRnd).pc = s.pc := rfl
@[simp] theorem State.drawRnd_stack (s : State) : (s.drawRnd).stack = s.stack := rfl
@[simp] theorem State.drawRnd_dt (s : State) : (s.drawRnd).dt = s.dt := rfl
@[simp] theorem State.drawRnd_st (s : State) : (s.drawRnd).st = s.st := rfl
@[simp] theorem State.drawRnd_disp (s : State) : (s.drawRnd).disp = s.disp := rfl
@[simp] theorem State.drawRnd_keys (s : State) : (s.drawRnd).keys = s.keys := rfl
@[simp] theorem State.drawRnd_ir (s : State) : (s.drawRnd).ir = s.ir := rfl
@[simp] theorem State.drawRnd_fault (s : State) : (s.drawRnd).fault = s.fault := rfl
@[simp] theorem State.drawRnd_mem (s : State) : (s.drawRnd).mem = s.mem := rfl
@[simp] theorem State.drawRnd_font (s : State) : (s.drawRnd).font = s.font := rfl
@[simp] theorem State.drawRnd_ipt (s : State) : (s.drawRnd).ipt = s.ipt := rfl
@[simp] theorem State.drawRnd_slotsLeft (s : State) : (s.drawRnd).slotsLeft = s.slotsLeft := rfl
@[simp] theorem State.drawRnd_audio (s : State) : (s.drawRnd).audio = s.audio := rfl
@[simp] theorem State.drawRnd_tickNo (s : State) : (s.drawRnd).tickNo = s.tickNo := rfl
@[simp] theorem State.drawRnd_rndNo (s : State) : (s.drawRnd).rndNo = s.rndNo + 1 := rfl
@[simp] theorem State.drawRnd_kwNo (s : State) : (s.drawRnd).kwNo = s.kwNo := rfl
@[simp] theorem State.drawRnd_reg (s : State) (y : Nibble) : (s.drawRnd).reg y = s.reg y := rfl
@[simp] theorem State.drawRnd_memRead (s : State) (a' : Nat) : (s.drawRnd).memRead a' = s.memRead a' := rfl
@[simp] theorem State.drawRnd_effAddr (s : State) (j : Nat) : (s.drawRnd).effAddr j = s.effAddr j := rfl
@[simp] theorem State.drawRnd_params (s : State) : (s.drawRnd).params = s.params := rfl

/-! ### drawKeyWait -/

@[simp] theorem State.drawKeyWait_v (s : State) : (s.drawKeyWait).v = s.v := rfl
@[simp] theorem State.drawKeyWait_i (s : State) : (s.drawKeyWait).i = s.i := rfl
@[simp] theorem State.drawKeyWait_pc (s : State) : (s.drawKeyWait).pc = s.pc := rfl
@[simp] theorem State.drawKeyWait_stack (s : State) : (s.drawKeyWait).stack = s.stack := rfl
@[simp] theorem State.drawKeyWait_dt (s : State) : (s.drawKeyWait).dt = s.dt := rfl
@[simp] theorem State.drawKeyWait_st (s : State) : (s.drawKeyWait).st = s.st := rfl
@[simp] theorem State.drawKeyWait_disp (s : State) : (s.drawKeyWait).disp = s.disp := rfl
@[simp] theorem State.drawKeyWait_keys (s : State) : (s.drawKeyWait).keys = s.keys := rfl
@[simp] theorem State.drawKeyWait_ir (s : State) : (s.drawKeyWait).ir = s.ir := rfl
@[simp] theorem State.drawKeyWait_fault (s : State) : (s.drawKeyWait).fault = s.fault := rfl
@[simp] theorem State.drawKeyWait_mem (s : State) : (s.drawKeyWait).mem = s.mem := rfl
@[simp] theorem State.drawKeyWait_font (s : State) : (s.drawKeyWait).font = s.font := rfl
@[simp] theorem State.drawKeyWait_ipt (s : State) : (s.drawKeyWait).ipt = s.ipt := rfl
@[simp] theorem State.drawKeyWait_slotsLeft (s : State) : (s.drawKeyWait).slotsLeft = s.slotsLeft := rfl
@[simp] theorem State.drawKeyWait_audio (s : State) : (s.drawKeyWait).audio = s.audio := rfl
@[simp] theorem State.drawKeyWait_tickNo (s : State) : (s.drawKeyWait).tickNo = s.tickNo := rfl
@[simp] theorem State.drawKeyWait_rndNo (s : State) : (s.drawKeyWait).rndNo = s.rndNo := rfl
@[simp] theorem State.drawKeyWait_kwNo (s : State) : (s.drawKeyWait).kwNo = s.kwNo + 1 := rfl
@[simp] theorem State.drawKeyWait_reg (s : State) (y : Nibble) : (s.drawKeyWait).reg y = s.reg y := rfl
@[simp] theorem State.drawKeyWait_memRead (s : State) (a' : Nat) : (s.drawKeyWait).memRead a' = s.memRead a' := rfl
@[simp] theorem State.drawKeyWait_effAddr (s : State) (j : Nat) : (s.drawKeyWait).effAddr j = s.effAddr j := rfl
@[simp] theorem State.drawKeyWait_params (s : State) : (s.drawKeyWait).params = s.params := rfl

/-! ### advanceIndex -/

@[simp] theorem State.advanceIndex_v (s : State) (n : Nat) : (s.advanceIndex n).v = s.v := rfl
@[simp] theorem State.advanceIndex_i (s : State) (n : Nat) : (s.advanceIndex n).i = s.i + BitVec.ofNat 16 n := rfl
@[simp] theorem State.advanceIndex_pc (s : State) (n : Nat) : (s.advanceIndex n).pc = s.pc := rfl
@[simp] theorem State.advanceIndex_stack (s : State) (n : Nat) : (s.advanceIndex n).stack = s.stack := rfl
@[simp] theorem State.advanceIndex_dt (s : State) (n : Nat) : (s.advanceIndex n).dt = s.dt := rfl
@[simp] theorem State.advanceIndex_st (s : State) (n : Nat) : (s.advanceIndex n).st = s.st := rfl
@[simp] theorem State.advanceIndex_disp (s : State) (n : Nat) : (s.advanceIndex n).disp = s.disp := rfl
@[simp] theorem State.advanceIndex_keys (s : State) (n : Nat) : (s.advanceIndex n).keys = s.keys := rfl
@[simp] theorem State.advanceIndex_ir (s : State) (n : Nat) : (s.advanceIndex n).ir = s.ir := rfl
@[simp] theorem State.advanceIndex_fault (s : State) (n : Nat) : (s.advanceIndex n).fault = s.fault := rfl
@[simp] theorem State.advanceIndex_mem (s : State) (n : Nat) : (s.advanceIndex n).mem = s.mem := rfl
@[simp] theorem State.advanceIndex_font (s : State) (n : Nat) : (s.advanceIndex n).font = s.font := rfl
@[simp] theorem State.advanceIndex_ipt (s : State) (n : Nat) : (s.advanceIndex n).ipt = s.ipt := rfl
@[simp] theorem State.advanceIndex_slotsLeft (s : State) (n : Nat) :
    (s.advanceIndex n).slotsLeft = s.slotsLeft := rfl
@[simp] theorem State.advanceIndex_audio (s : State) (n : Nat) : (s.advanceIndex n).audio = s.audio := rfl
@[simp] theorem State.advanceIndex_tickNo (s : State) (n : Nat) : (s.advanceIndex n).tickNo = s.tickNo := rfl
@[simp] theorem State.advanceIndex_rndNo (s : State) (n : Nat) : (s.advanceIndex n).rndNo = s.rndNo := rfl
@[simp] theorem State.advanceIndex_kwNo (s : State) (n : Nat) : (s.advanceIndex n).kwNo = s.kwNo := rfl
@[simp] theorem State.advanceIndex_reg (s : State) (n : Nat) (y : Nibble) : (s.advanceIndex n).reg y = s.reg y := rfl
@[simp] theorem State.advanceIndex_memRead (s : State) (n : Nat) (a' : Nat) : (s.advanceIndex n).memRead a' = s.memRead a' := rfl
@[simp] theorem State.advanceIndex_params (s : State) (n : Nat) : (s.advanceIndex n).params = s.params := rfl

/-! ### enterFault -/

@[simp] theorem State.enterFault_v (s : State) (r : FaultRecord) : (s.enterFault r).v = s.v := rfl
@[simp] theorem State.enterFault_i (s : State) (r : FaultRecord) : (s.enterFault r).i = s.i := rfl
@[simp] theorem State.enterFault_pc (s : State) (r : FaultRecord) : (s.enterFault r).pc = s.pc := rfl
@[simp] theorem State.enterFault_stack (s : State) (r : FaultRecord) : (s.enterFault r).stack = s.stack := rfl
@[simp] theorem State.enterFault_dt (s : State) (r : FaultRecord) : (s.enterFault r).dt = s.dt := rfl
@[simp] theorem State.enterFault_st (s : State) (r : FaultRecord) : (s.enterFault r).st = s.st := rfl
@[simp] theorem State.enterFault_disp (s : State) (r : FaultRecord) : (s.enterFault r).disp = s.disp := rfl
@[simp] theorem State.enterFault_keys (s : State) (r : FaultRecord) : (s.enterFault r).keys = s.keys := rfl
@[simp] theorem State.enterFault_ir (s : State) (r : FaultRecord) : (s.enterFault r).ir = s.ir := rfl
@[simp] theorem State.enterFault_fault (s : State) (r : FaultRecord) : (s.enterFault r).fault = some r := rfl
@[simp] theorem State.enterFault_mem (s : State) (r : FaultRecord) : (s.enterFault r).mem = s.mem := rfl
@[simp] theorem State.enterFault_font (s : State) (r : FaultRecord) : (s.enterFault r).font = s.font := rfl
@[simp] theorem State.enterFault_ipt (s : State) (r : FaultRecord) : (s.enterFault r).ipt = s.ipt := rfl
@[simp] theorem State.enterFault_slotsLeft (s : State) (r : FaultRecord) : (s.enterFault r).slotsLeft = 0 := rfl
@[simp] theorem State.enterFault_audio (s : State) (r : FaultRecord) : (s.enterFault r).audio = s.audio := rfl
@[simp] theorem State.enterFault_tickNo (s : State) (r : FaultRecord) : (s.enterFault r).tickNo = s.tickNo := rfl
@[simp] theorem State.enterFault_rndNo (s : State) (r : FaultRecord) : (s.enterFault r).rndNo = s.rndNo := rfl
@[simp] theorem State.enterFault_kwNo (s : State) (r : FaultRecord) : (s.enterFault r).kwNo = s.kwNo := rfl
@[simp] theorem State.enterFault_reg (s : State) (r : FaultRecord) (y : Nibble) : (s.enterFault r).reg y = s.reg y := rfl
@[simp] theorem State.enterFault_memRead (s : State) (r : FaultRecord) (a' : Nat) : (s.enterFault r).memRead a' = s.memRead a' := rfl
@[simp] theorem State.enterFault_effAddr (s : State) (r : FaultRecord) (j : Nat) : (s.enterFault r).effAddr j = s.effAddr j := rfl
@[simp] theorem State.enterFault_params (s : State) (r : FaultRecord) : (s.enterFault r).params = s.params := rfl

/-! ### raise -/

@[simp] theorem State.raise_v (s : State) (c : Fault) (n : Nat) : (s.raise c n).v = s.v := rfl
@[simp] theorem State.raise_i (s : State) (c : Fault) (n : Nat) : (s.raise c n).i = s.i := rfl
@[simp] theorem State.raise_pc (s : State) (c : Fault) (n : Nat) : (s.raise c n).pc = s.pc := rfl
@[simp] theorem State.raise_stack (s : State) (c : Fault) (n : Nat) : (s.raise c n).stack = s.stack := rfl
@[simp] theorem State.raise_dt (s : State) (c : Fault) (n : Nat) : (s.raise c n).dt = s.dt := rfl
@[simp] theorem State.raise_st (s : State) (c : Fault) (n : Nat) : (s.raise c n).st = s.st := rfl
@[simp] theorem State.raise_disp (s : State) (c : Fault) (n : Nat) : (s.raise c n).disp = s.disp := rfl
@[simp] theorem State.raise_keys (s : State) (c : Fault) (n : Nat) : (s.raise c n).keys = s.keys := rfl
@[simp] theorem State.raise_ir (s : State) (c : Fault) (n : Nat) : (s.raise c n).ir = s.ir := rfl
@[simp] theorem State.raise_fault (s : State) (c : Fault) (n : Nat) :
    (s.raise c n).fault = some { cause := c, pc := s.pc - 2, ir := s.ir, info := n } := rfl
@[simp] theorem State.raise_mem (s : State) (c : Fault) (n : Nat) : (s.raise c n).mem = s.mem := rfl
@[simp] theorem State.raise_font (s : State) (c : Fault) (n : Nat) : (s.raise c n).font = s.font := rfl
@[simp] theorem State.raise_ipt (s : State) (c : Fault) (n : Nat) : (s.raise c n).ipt = s.ipt := rfl
@[simp] theorem State.raise_slotsLeft (s : State) (c : Fault) (n : Nat) : (s.raise c n).slotsLeft = 0 := rfl
@[simp] theorem State.raise_audio (s : State) (c : Fault) (n : Nat) : (s.raise c n).audio = s.audio := rfl
@[simp] theorem State.raise_tickNo (s : State) (c : Fault) (n : Nat) : (s.raise c n).tickNo = s.tickNo := rfl
@[simp] theorem State.raise_rndNo (s : State) (c : Fault) (n : Nat) : (s.raise c n).rndNo = s.rndNo := rfl
@[simp] theorem State.raise_kwNo (s : State) (c : Fault) (n : Nat) : (s.raise c n).kwNo = s.kwNo := rfl
@[simp] theorem State.raise_reg (s : State) (c : Fault) (n : Nat) (y : Nibble) : (s.raise c n).reg y = s.reg y := rfl
@[simp] theorem State.raise_memRead (s : State) (c : Fault) (n : Nat) (a' : Nat) : (s.raise c n).memRead a' = s.memRead a' := rfl
@[simp] theorem State.raise_effAddr (s : State) (c : Fault) (n : Nat) (j : Nat) : (s.raise c n).effAddr j = s.effAddr j := rfl
@[simp] theorem State.raise_params (s : State) (c : Fault) (n : Nat) : (s.raise c n).params = s.params := rfl

/-! ### raiseFetch -/

@[simp] theorem State.raiseFetch_v (s : State) : (s.raiseFetch).v = s.v := rfl
@[simp] theorem State.raiseFetch_i (s : State) : (s.raiseFetch).i = s.i := rfl
@[simp] theorem State.raiseFetch_pc (s : State) : (s.raiseFetch).pc = s.pc := rfl
@[simp] theorem State.raiseFetch_stack (s : State) : (s.raiseFetch).stack = s.stack := rfl
@[simp] theorem State.raiseFetch_dt (s : State) : (s.raiseFetch).dt = s.dt := rfl
@[simp] theorem State.raiseFetch_st (s : State) : (s.raiseFetch).st = s.st := rfl
@[simp] theorem State.raiseFetch_disp (s : State) : (s.raiseFetch).disp = s.disp := rfl
@[simp] theorem State.raiseFetch_keys (s : State) : (s.raiseFetch).keys = s.keys := rfl
@[simp] theorem State.raiseFetch_ir (s : State) : (s.raiseFetch).ir = s.ir := rfl
@[simp] theorem State.raiseFetch_fault (s : State) :
    (s.raiseFetch).fault = some { cause := .fetchOutOfRange, pc := s.pc, ir := s.ir, info := s.pc.toNat } := rfl
@[simp] theorem State.raiseFetch_mem (s : State) : (s.raiseFetch).mem = s.mem := rfl
@[simp] theorem State.raiseFetch_font (s : State) : (s.raiseFetch).font = s.font := rfl
@[simp] theorem State.raiseFetch_ipt (s : State) : (s.raiseFetch).ipt = s.ipt := rfl
@[simp] theorem State.raiseFetch_slotsLeft (s : State) : (s.raiseFetch).slotsLeft = 0 := rfl
@[simp] theorem State.raiseFetch_audio (s : State) : (s.raiseFetch).audio = s.audio := rfl
@[simp] theorem State.raiseFetch_tickNo (s : State) : (s.raiseFetch).tickNo = s.tickNo := rfl
@[simp] theorem State.raiseFetch_rndNo (s : State) : (s.raiseFetch).rndNo = s.rndNo := rfl
@[simp] theorem State.raiseFetch_kwNo (s : State) : (s.raiseFetch).kwNo = s.kwNo := rfl
@[simp] theorem State.raiseFetch_reg (s : State) (y : Nibble) : (s.raiseFetch).reg y = s.reg y := rfl
@[simp] theorem State.raiseFetch_memRead (s : State) (a' : Nat) : (s.raiseFetch).memRead a' = s.memRead a' := rfl
@[simp] theorem State.raiseFetch_effAddr (s : State) (j : Nat) : (s.raiseFetch).effAddr j = s.effAddr j := rfl
@[simp] theorem State.raiseFetch_params (s : State) : (s.raiseFetch).params = s.params := rfl

/-! ### fetched -/

@[simp] theorem State.fetched_v (s : State) (w : Word) : (s.fetched w).v = s.v := rfl
@[simp] theorem State.fetched_i (s : State) (w : Word) : (s.fetched w).i = s.i := rfl
@[simp] theorem State.fetched_pc (s : State) (w : Word) : (s.fetched w).pc = s.pc + 2 := rfl
@[simp] theorem State.fetched_stack (s : State) (w : Word) : (s.fetched w).stack = s.stack := rfl
@[simp] theorem State.fetched_dt (s : State) (w : Word) : (s.fetched w).dt = s.dt := rfl
@[simp] theorem State.fetched_st (s : State) (w : Word) : (s.fetched w).st = s.st := rfl
@[simp] theorem State.fetched_disp (s : State) (w : Word) : (s.fetched w).disp = s.disp := rfl
@[simp] theorem State.fetched_keys (s : State) (w : Word) : (s.fetched w).keys = s.keys := rfl
@[simp] theorem State.fetched_ir (s : State) (w : Word) : (s.fetched w).ir = w := rfl
@[simp] theorem State.fetched_fault (s : State) (w : Word) : (s.fetched w).fault = s.fault := rfl
@[simp] theorem State.fetched_mem (s : State) (w : Word) : (s.fetched w).mem = s.mem := rfl
@[simp] theorem State.fetched_font (s : State) (w : Word) : (s.fetched w).font = s.font := rfl
@[simp] theorem State.fetched_ipt (s : State) (w : Word) : (s.fetched w).ipt = s.ipt := rfl
@[simp] theorem State.fetched_slotsLeft (s : State) (w : Word) : (s.fetched w).slotsLeft = s.slotsLeft - 1 := rfl
@[simp] theorem State.fetched_audio (s : State) (w : Word) : (s.fetched w).audio = s.audio := rfl
@[simp] theorem State.fetched_tickNo (s : State) (w : Word) : (s.fetched w).tickNo = s.tickNo := rfl
@[simp] theorem State.fetched_rndNo (s : State) (w : Word) : (s.fetched w).rndNo = s.rndNo := rfl
@[simp] theorem State.fetched_kwNo (s : State) (w : Word) : (s.fetched w).kwNo = s.kwNo := rfl
@[simp] theorem State.fetched_reg (s : State) (w : Word) (y : Nibble) : (s.fetched w).reg y = s.reg y := rfl
@[simp] theorem State.fetched_memRead (s : State) (w : Word) (a' : Nat) : (s.fetched w).memRead a' = s.memRead a' := rfl
@[simp] theorem State.fetched_effAddr (s : State) (w : Word) (j : Nat) : (s.fetched w).effAddr j = s.effAddr j := rfl
@[simp] theorem State.fetched_params (s : State) (w : Word) : (s.fetched w).params = s.params := rfl

/-! ### openTick -/

@[simp] theorem State.openTick_v (s : State) (k : BitVec 16) : (s.openTick k).v = s.v := rfl
@[simp] theorem State.openTick_i (s : State) (k : BitVec 16) : (s.openTick k).i = s.i := rfl
@[simp] theorem State.openTick_pc (s : State) (k : BitVec 16) : (s.openTick k).pc = s.pc := rfl
@[simp] theorem State.openTick_stack (s : State) (k : BitVec 16) : (s.openTick k).stack = s.stack := rfl
@[simp] theorem State.openTick_dt (s : State) (k : BitVec 16) : (s.openTick k).dt = timerTick s.dt := rfl
@[simp] theorem State.openTick_st (s : State) (k : BitVec 16) : (s.openTick k).st = timerTick s.st := rfl
@[simp] theorem State.openTick_disp (s : State) (k : BitVec 16) : (s.openTick k).disp = s.disp := rfl
@[simp] theorem State.openTick_keys (s : State) (k : BitVec 16) : (s.openTick k).keys = k := rfl
@[simp] theorem State.openTick_ir (s : State) (k : BitVec 16) : (s.openTick k).ir = s.ir := rfl
@[simp] theorem State.openTick_fault (s : State) (k : BitVec 16) : (s.openTick k).fault = s.fault := rfl
@[simp] theorem State.openTick_mem (s : State) (k : BitVec 16) : (s.openTick k).mem = s.mem := rfl
@[simp] theorem State.openTick_font (s : State) (k : BitVec 16) : (s.openTick k).font = s.font := rfl
@[simp] theorem State.openTick_ipt (s : State) (k : BitVec 16) : (s.openTick k).ipt = s.ipt := rfl
@[simp] theorem State.openTick_slotsLeft (s : State) (k : BitVec 16) : (s.openTick k).slotsLeft = s.ipt := rfl
@[simp] theorem State.openTick_audio (s : State) (k : BitVec 16) :
    (s.openTick k).audio = (timerTick s.st != 0) := rfl
@[simp] theorem State.openTick_tickNo (s : State) (k : BitVec 16) : (s.openTick k).tickNo = s.tickNo + 1 := rfl
@[simp] theorem State.openTick_rndNo (s : State) (k : BitVec 16) : (s.openTick k).rndNo = s.rndNo := rfl
@[simp] theorem State.openTick_kwNo (s : State) (k : BitVec 16) : (s.openTick k).kwNo = s.kwNo := rfl
@[simp] theorem State.openTick_reg (s : State) (k : BitVec 16) (y : Nibble) : (s.openTick k).reg y = s.reg y := rfl
@[simp] theorem State.openTick_memRead (s : State) (k : BitVec 16) (a' : Nat) : (s.openTick k).memRead a' = s.memRead a' := rfl
@[simp] theorem State.openTick_effAddr (s : State) (k : BitVec 16) (j : Nat) : (s.openTick k).effAddr j = s.effAddr j := rfl
@[simp] theorem State.openTick_params (s : State) (k : BitVec 16) : (s.openTick k).params = s.params := rfl

/-! ### idleTick -/

@[simp] theorem State.idleTick_v (s : State) : (s.idleTick).v = s.v := rfl
@[simp] theorem State.idleTick_i (s : State) : (s.idleTick).i = s.i := rfl
@[simp] theorem State.idleTick_pc (s : State) : (s.idleTick).pc = s.pc := rfl
@[simp] theorem State.idleTick_stack (s : State) : (s.idleTick).stack = s.stack := rfl
@[simp] theorem State.idleTick_dt (s : State) : (s.idleTick).dt = s.dt := rfl
@[simp] theorem State.idleTick_st (s : State) : (s.idleTick).st = s.st := rfl
@[simp] theorem State.idleTick_disp (s : State) : (s.idleTick).disp = s.disp := rfl
@[simp] theorem State.idleTick_keys (s : State) : (s.idleTick).keys = s.keys := rfl
@[simp] theorem State.idleTick_ir (s : State) : (s.idleTick).ir = s.ir := rfl
@[simp] theorem State.idleTick_fault (s : State) : (s.idleTick).fault = s.fault := rfl
@[simp] theorem State.idleTick_mem (s : State) : (s.idleTick).mem = s.mem := rfl
@[simp] theorem State.idleTick_font (s : State) : (s.idleTick).font = s.font := rfl
@[simp] theorem State.idleTick_ipt (s : State) : (s.idleTick).ipt = s.ipt := rfl
@[simp] theorem State.idleTick_slotsLeft (s : State) : (s.idleTick).slotsLeft = s.slotsLeft := rfl
@[simp] theorem State.idleTick_audio (s : State) : (s.idleTick).audio = false := rfl
@[simp] theorem State.idleTick_tickNo (s : State) : (s.idleTick).tickNo = s.tickNo := rfl
@[simp] theorem State.idleTick_rndNo (s : State) : (s.idleTick).rndNo = s.rndNo := rfl
@[simp] theorem State.idleTick_kwNo (s : State) : (s.idleTick).kwNo = s.kwNo := rfl
@[simp] theorem State.idleTick_reg (s : State) (y : Nibble) : (s.idleTick).reg y = s.reg y := rfl
@[simp] theorem State.idleTick_memRead (s : State) (a' : Nat) : (s.idleTick).memRead a' = s.memRead a' := rfl
@[simp] theorem State.idleTick_effAddr (s : State) (j : Nat) : (s.idleTick).effAddr j = s.effAddr j := rfl
@[simp] theorem State.idleTick_params (s : State) : (s.idleTick).params = s.params := rfl

/-! ### rndWith -/

@[simp] theorem State.rndWith_v (s : State) (x : Nibble) (nn r : Byte) :
    (s.rndWith x nn r).v = s.v.set x.toNat (r &&& nn) x.isLt := rfl
@[simp] theorem State.rndWith_i (s : State) (x : Nibble) (nn r : Byte) : (s.rndWith x nn r).i = s.i := rfl
@[simp] theorem State.rndWith_pc (s : State) (x : Nibble) (nn r : Byte) : (s.rndWith x nn r).pc = s.pc := rfl
@[simp] theorem State.rndWith_stack (s : State) (x : Nibble) (nn r : Byte) :
    (s.rndWith x nn r).stack = s.stack := rfl
@[simp] theorem State.rndWith_dt (s : State) (x : Nibble) (nn r : Byte) : (s.rndWith x nn r).dt = s.dt := rfl
@[simp] theorem State.rndWith_st (s : State) (x : Nibble) (nn r : Byte) : (s.rndWith x nn r).st = s.st := rfl
@[simp] theorem State.rndWith_disp (s : State) (x : Nibble) (nn r : Byte) : (s.rndWith x nn r).disp = s.disp := rfl
@[simp] theorem State.rndWith_keys (s : State) (x : Nibble) (nn r : Byte) : (s.rndWith x nn r).keys = s.keys := rfl
@[simp] theorem State.rndWith_ir (s : State) (x : Nibble) (nn r : Byte) : (s.rndWith x nn r).ir = s.ir := rfl
@[simp] theorem State.rndWith_fault (s : State) (x : Nibble) (nn r : Byte) :
    (s.rndWith x nn r).fault = s.fault := rfl
@[simp] theorem State.rndWith_mem (s : State) (x : Nibble) (nn r : Byte) : (s.rndWith x nn r).mem = s.mem := rfl
@[simp] theorem State.rndWith_font (s : State) (x : Nibble) (nn r : Byte) : (s.rndWith x nn r).font = s.font := rfl
@[simp] theorem State.rndWith_ipt (s : State) (x : Nibble) (nn r : Byte) : (s.rndWith x nn r).ipt = s.ipt := rfl
@[simp] theorem State.rndWith_slotsLeft (s : State) (x : Nibble) (nn r : Byte) :
    (s.rndWith x nn r).slotsLeft = s.slotsLeft := rfl
@[simp] theorem State.rndWith_audio (s : State) (x : Nibble) (nn r : Byte) :
    (s.rndWith x nn r).audio = s.audio := rfl
@[simp] theorem State.rndWith_tickNo (s : State) (x : Nibble) (nn r : Byte) :
    (s.rndWith x nn r).tickNo = s.tickNo := rfl
@[simp] theorem State.rndWith_rndNo (s : State) (x : Nibble) (nn r : Byte) :
    (s.rndWith x nn r).rndNo = s.rndNo + 1 := rfl
@[simp] theorem State.rndWith_kwNo (s : State) (x : Nibble) (nn r : Byte) : (s.rndWith x nn r).kwNo = s.kwNo := rfl
@[simp] theorem State.rndWith_memRead (s : State) (x : Nibble) (nn r : Byte) (a' : Nat) : (s.rndWith x nn r).memRead a' = s.memRead a' := rfl
@[simp] theorem State.rndWith_effAddr (s : State) (x : Nibble) (nn r : Byte) (j : Nat) : (s.rndWith x nn r).effAddr j = s.effAddr j := rfl
@[simp] theorem State.rndWith_params (s : State) (x : Nibble) (nn r : Byte) : (s.rndWith x nn r).params = s.params := rfl

/-! ### resetEvent -/

@[simp] theorem State.resetEvent_v (s : State) : (s.resetEvent).v = .replicate 16 0 := rfl
@[simp] theorem State.resetEvent_i (s : State) : (s.resetEvent).i = 0 := rfl
@[simp] theorem State.resetEvent_pc (s : State) : (s.resetEvent).pc = Config.progStart := rfl
@[simp] theorem State.resetEvent_stack (s : State) : (s.resetEvent).stack = CallStack.fresh s.stack.depth := rfl
@[simp] theorem State.resetEvent_dt (s : State) : (s.resetEvent).dt = 0 := rfl
@[simp] theorem State.resetEvent_st (s : State) : (s.resetEvent).st = 0 := rfl
@[simp] theorem State.resetEvent_disp (s : State) : (s.resetEvent).disp = Display.clear := rfl
@[simp] theorem State.resetEvent_keys (s : State) : (s.resetEvent).keys = 0 := rfl
@[simp] theorem State.resetEvent_ir (s : State) : (s.resetEvent).ir = 0 := rfl
@[simp] theorem State.resetEvent_fault (s : State) : (s.resetEvent).fault = none := rfl
@[simp] theorem State.resetEvent_mem (s : State) : (s.resetEvent).mem = Memory.restoreFont s.mem := rfl
@[simp] theorem State.resetEvent_font (s : State) : (s.resetEvent).font = s.font := rfl
@[simp] theorem State.resetEvent_ipt (s : State) : (s.resetEvent).ipt = s.ipt := rfl
@[simp] theorem State.resetEvent_slotsLeft (s : State) : (s.resetEvent).slotsLeft = 0 := rfl
@[simp] theorem State.resetEvent_audio (s : State) : (s.resetEvent).audio = s.audio := rfl
@[simp] theorem State.resetEvent_tickNo (s : State) : (s.resetEvent).tickNo = s.tickNo := rfl
@[simp] theorem State.resetEvent_rndNo (s : State) : (s.resetEvent).rndNo = s.rndNo := rfl
@[simp] theorem State.resetEvent_kwNo (s : State) : (s.resetEvent).kwNo = s.kwNo := rfl

/-! ### The loops of FX33, FX55 and FX65 and the loading of a ROM -/

@[simp] theorem State.storeRegs_v (s : State) (n : Nat) : (s.storeRegs n).v = s.v := by
  induction n with
  | zero => rfl
  | succ n ih => simpa [State.storeRegs] using ih
@[simp] theorem State.storeRegs_i (s : State) (n : Nat) : (s.storeRegs n).i = s.i := by
  induction n with
  | zero => rfl
  | succ n ih => simpa [State.storeRegs] using ih
@[simp] theorem State.storeRegs_pc (s : State) (n : Nat) : (s.storeRegs n).pc = s.pc := by
  induction n with
  | zero => rfl
  | succ n ih => simpa [State.storeRegs] using ih
@[simp] theorem State.storeRegs_stack (s : State) (n : Nat) : (s.storeRegs n).stack = s.stack := by
  induction n with
  | zero => rfl
  | succ n ih => simpa [State.storeRegs] using ih
@[simp] theorem State.storeRegs_dt (s : State) (n : Nat) : (s.storeRegs n).dt = s.dt := by
  induction n with
  | zero => rfl
  | succ n ih => simpa [State.storeRegs] using ih
@[simp] theorem State.storeRegs_st (s : State) (n : Nat) : (s.storeRegs n).st = s.st := by
  induction n with
  | zero => rfl
  | succ n ih => simpa [State.storeRegs] using ih
@[simp] theorem State.storeRegs_disp (s : State) (n : Nat) : (s.storeRegs n).disp = s.disp := by
  induction n with
  | zero => rfl
  | succ n ih => simpa [State.storeRegs] using ih
@[simp] theorem State.storeRegs_keys (s : State) (n : Nat) : (s.storeRegs n).keys = s.keys := by
  induction n with
  | zero => rfl
  | succ n ih => simpa [State.storeRegs] using ih
@[simp] theorem State.storeRegs_ir (s : State) (n : Nat) : (s.storeRegs n).ir = s.ir := by
  induction n with
  | zero => rfl
  | succ n ih => simpa [State.storeRegs] using ih
@[simp] theorem State.storeRegs_fault (s : State) (n : Nat) : (s.storeRegs n).fault = s.fault := by
  induction n with
  | zero => rfl
  | succ n ih => simpa [State.storeRegs] using ih
@[simp] theorem State.storeRegs_font (s : State) (n : Nat) : (s.storeRegs n).font = s.font := by
  induction n with
  | zero => rfl
  | succ n ih => simpa [State.storeRegs] using ih
@[simp] theorem State.storeRegs_ipt (s : State) (n : Nat) : (s.storeRegs n).ipt = s.ipt := by
  induction n with
  | zero => rfl
  | succ n ih => simpa [State.storeRegs] using ih
@[simp] theorem State.storeRegs_slotsLeft (s : State) (n : Nat) : (s.storeRegs n).slotsLeft = s.slotsLeft := by
  induction n with
  | zero => rfl
  | succ n ih => simpa [State.storeRegs] using ih
@[simp] theorem State.storeRegs_audio (s : State) (n : Nat) : (s.storeRegs n).audio = s.audio := by
  induction n with
  | zero => rfl
  | succ n ih => simpa [State.storeRegs] using ih
@[simp] theorem State.storeRegs_tickNo (s : State) (n : Nat) : (s.storeRegs n).tickNo = s.tickNo := by
  induction n with
  | zero => rfl
  | succ n ih => simpa [State.storeRegs] using ih
@[simp] theorem State.storeRegs_rndNo (s : State) (n : Nat) : (s.storeRegs n).rndNo = s.rndNo := by
  induction n with
  | zero => rfl
  | succ n ih => simpa [State.storeRegs] using ih
@[simp] theorem State.storeRegs_kwNo (s : State) (n : Nat) : (s.storeRegs n).kwNo = s.kwNo := by
  induction n with
  | zero => rfl
  | succ n ih => simpa [State.storeRegs] using ih
@[simp] theorem State.loadRegs_i (s : State) (n : Nat) : (s.loadRegs n).i = s.i := by
  induction n with
  | zero => rfl
  | succ n ih => simpa [State.loadRegs] using ih
@[simp] theorem State.loadRegs_pc (s : State) (n : Nat) : (s.loadRegs n).pc = s.pc := by
  induction n with
  | zero => rfl
  | succ n ih => simpa [State.loadRegs] using ih
@[simp] theorem State.loadRegs_stack (s : State) (n : Nat) : (s.loadRegs n).stack = s.stack := by
  induction n with
  | zero => rfl
  | succ n ih => simpa [State.loadRegs] using ih
@[simp] theorem State.loadRegs_dt (s : State) (n : Nat) : (s.loadRegs n).dt = s.dt := by
  induction n with
  | zero => rfl
  | succ n ih => simpa [State.loadRegs] using ih
@[simp] theorem State.loadRegs_st (s : State) (n : Nat) : (s.loadRegs n).st = s.st := by
  induction n with
  | zero => rfl
  | succ n ih => simpa [State.loadRegs] using ih
@[simp] theorem State.loadRegs_disp (s : State) (n : Nat) : (s.loadRegs n).disp = s.disp := by
  induction n with
  | zero => rfl
  | succ n ih => simpa [State.loadRegs] using ih
@[simp] theorem State.loadRegs_keys (s : State) (n : Nat) : (s.loadRegs n).keys = s.keys := by
  induction n with
  | zero => rfl
  | succ n ih => simpa [State.loadRegs] using ih
@[simp] theorem State.loadRegs_ir (s : State) (n : Nat) : (s.loadRegs n).ir = s.ir := by
  induction n with
  | zero => rfl
  | succ n ih => simpa [State.loadRegs] using ih
@[simp] theorem State.loadRegs_fault (s : State) (n : Nat) : (s.loadRegs n).fault = s.fault := by
  induction n with
  | zero => rfl
  | succ n ih => simpa [State.loadRegs] using ih
@[simp] theorem State.loadRegs_mem (s : State) (n : Nat) : (s.loadRegs n).mem = s.mem := by
  induction n with
  | zero => rfl
  | succ n ih => simpa [State.loadRegs] using ih
@[simp] theorem State.loadRegs_font (s : State) (n : Nat) : (s.loadRegs n).font = s.font := by
  induction n with
  | zero => rfl
  | succ n ih => simpa [State.loadRegs] using ih
@[simp] theorem State.loadRegs_ipt (s : State) (n : Nat) : (s.loadRegs n).ipt = s.ipt := by
  induction n with
  | zero => rfl
  | succ n ih => simpa [State.loadRegs] using ih
@[simp] theorem State.loadRegs_slotsLeft (s : State) (n : Nat) : (s.loadRegs n).slotsLeft = s.slotsLeft := by
  induction n with
  | zero => rfl
  | succ n ih => simpa [State.loadRegs] using ih
@[simp] theorem State.loadRegs_audio (s : State) (n : Nat) : (s.loadRegs n).audio = s.audio := by
  induction n with
  | zero => rfl
  | succ n ih => simpa [State.loadRegs] using ih
@[simp] theorem State.loadRegs_tickNo (s : State) (n : Nat) : (s.loadRegs n).tickNo = s.tickNo := by
  induction n with
  | zero => rfl
  | succ n ih => simpa [State.loadRegs] using ih
@[simp] theorem State.loadRegs_rndNo (s : State) (n : Nat) : (s.loadRegs n).rndNo = s.rndNo := by
  induction n with
  | zero => rfl
  | succ n ih => simpa [State.loadRegs] using ih
@[simp] theorem State.loadRegs_kwNo (s : State) (n : Nat) : (s.loadRegs n).kwNo = s.kwNo := by
  induction n with
  | zero => rfl
  | succ n ih => simpa [State.loadRegs] using ih
@[simp] theorem State.memWriteList_v (s : State) (a : Nat) (l : List Byte) : (s.memWriteList a l).v = s.v := by
  induction l generalizing s a with
  | nil => rfl
  | cons b l ih => simpa [State.memWriteList] using ih (s.memWrite a b) (a + 1)
@[simp] theorem State.memWriteList_i (s : State) (a : Nat) (l : List Byte) : (s.memWriteList a l).i = s.i := by
  induction l generalizing s a with
  | nil => rfl
  | cons b l ih => simpa [State.memWriteList] using ih (s.memWrite a b) (a + 1)
@[simp] theorem State.memWriteList_pc (s : State) (a : Nat) (l : List Byte) : (s.memWriteList a l).pc = s.pc := by
  induction l generalizing s a with
  | nil => rfl
  | cons b l ih => simpa [State.memWriteList] using ih (s.memWrite a b) (a + 1)
@[simp] theorem State.memWriteList_stack (s : State) (a : Nat) (l : List Byte) : (s.memWriteList a l).stack = s.stack := by
  induction l generalizing s a with
  | nil => rfl
  | cons b l ih => simpa [State.memWriteList] using ih (s.memWrite a b) (a + 1)
@[simp] theorem State.memWriteList_dt (s : State) (a : Nat) (l : List Byte) : (s.memWriteList a l).dt = s.dt := by
  induction l generalizing s a with
  | nil => rfl
  | cons b l ih => simpa [State.memWriteList] using ih (s.memWrite a b) (a + 1)
@[simp] theorem State.memWriteList_st (s : State) (a : Nat) (l : List Byte) : (s.memWriteList a l).st = s.st := by
  induction l generalizing s a with
  | nil => rfl
  | cons b l ih => simpa [State.memWriteList] using ih (s.memWrite a b) (a + 1)
@[simp] theorem State.memWriteList_disp (s : State) (a : Nat) (l : List Byte) : (s.memWriteList a l).disp = s.disp := by
  induction l generalizing s a with
  | nil => rfl
  | cons b l ih => simpa [State.memWriteList] using ih (s.memWrite a b) (a + 1)
@[simp] theorem State.memWriteList_keys (s : State) (a : Nat) (l : List Byte) : (s.memWriteList a l).keys = s.keys := by
  induction l generalizing s a with
  | nil => rfl
  | cons b l ih => simpa [State.memWriteList] using ih (s.memWrite a b) (a + 1)
@[simp] theorem State.memWriteList_ir (s : State) (a : Nat) (l : List Byte) : (s.memWriteList a l).ir = s.ir := by
  induction l generalizing s a with
  | nil => rfl
  | cons b l ih => simpa [State.memWriteList] using ih (s.memWrite a b) (a + 1)
@[simp] theorem State.memWriteList_fault (s : State) (a : Nat) (l : List Byte) : (s.memWriteList a l).fault = s.fault := by
  induction l generalizing s a with
  | nil => rfl
  | cons b l ih => simpa [State.memWriteList] using ih (s.memWrite a b) (a + 1)
@[simp] theorem State.memWriteList_font (s : State) (a : Nat) (l : List Byte) : (s.memWriteList a l).font = s.font := by
  induction l generalizing s a with
  | nil => rfl
  | cons b l ih => simpa [State.memWriteList] using ih (s.memWrite a b) (a + 1)
@[simp] theorem State.memWriteList_ipt (s : State) (a : Nat) (l : List Byte) : (s.memWriteList a l).ipt = s.ipt := by
  induction l generalizing s a with
  | nil => rfl
  | cons b l ih => simpa [State.memWriteList] using ih (s.memWrite a b) (a + 1)
@[simp] theorem State.memWriteList_slotsLeft (s : State) (a : Nat) (l : List Byte) : (s.memWriteList a l).slotsLeft = s.slotsLeft := by
  induction l generalizing s a with
  | nil => rfl
  | cons b l ih => simpa [State.memWriteList] using ih (s.memWrite a b) (a + 1)
@[simp] theorem State.memWriteList_audio (s : State) (a : Nat) (l : List Byte) : (s.memWriteList a l).audio = s.audio := by
  induction l generalizing s a with
  | nil => rfl
  | cons b l ih => simpa [State.memWriteList] using ih (s.memWrite a b) (a + 1)
@[simp] theorem State.memWriteList_tickNo (s : State) (a : Nat) (l : List Byte) : (s.memWriteList a l).tickNo = s.tickNo := by
  induction l generalizing s a with
  | nil => rfl
  | cons b l ih => simpa [State.memWriteList] using ih (s.memWrite a b) (a + 1)
@[simp] theorem State.memWriteList_rndNo (s : State) (a : Nat) (l : List Byte) : (s.memWriteList a l).rndNo = s.rndNo := by
  induction l generalizing s a with
  | nil => rfl
  | cons b l ih => simpa [State.memWriteList] using ih (s.memWrite a b) (a + 1)
@[simp] theorem State.memWriteList_kwNo (s : State) (a : Nat) (l : List Byte) : (s.memWriteList a l).kwNo = s.kwNo := by
  induction l generalizing s a with
  | nil => rfl
  | cons b l ih => simpa [State.memWriteList] using ih (s.memWrite a b) (a + 1)
@[simp] theorem State.storeRegs_reg (s : State) (n : Nat) (y : Nibble) : (s.storeRegs n).reg y = s.reg y := by
  simp [State.reg]
@[simp] theorem State.memWriteList_reg (s : State) (a : Nat) (l : List Byte) (y : Nibble) :
    (s.memWriteList a l).reg y = s.reg y := by
  simp [State.reg]
@[simp] theorem State.loadRegs_memRead (s : State) (n a : Nat) : (s.loadRegs n).memRead a = s.memRead a := by
  simp [State.memRead]

/-! ### setFlagged, a result and then a flag -/

@[simp] theorem State.setFlagged_i (s : State) (x : Nibble) (r : Byte) (b : Bool) : (s.setFlagged x r b).i = s.i := rfl
@[simp] theorem State.setFlagged_pc (s : State) (x : Nibble) (r : Byte) (b : Bool) : (s.setFlagged x r b).pc = s.pc := rfl
@[simp] theorem State.setFlagged_stack (s : State) (x : Nibble) (r : Byte) (b : Bool) : (s.setFlagged x r b).stack = s.stack := rfl
@[simp] theorem State.setFlagged_dt (s : State) (x : Nibble) (r : Byte) (b : Bool) : (s.setFlagged x r b).dt = s.dt := rfl
@[simp] theorem State.setFlagged_st (s : State) (x : Nibble) (r : Byte) (b : Bool) : (s.setFlagged x r b).st = s.st := rfl
@[simp] theorem State.setFlagged_disp (s : State) (x : Nibble) (r : Byte) (b : Bool) : (s.setFlagged x r b).disp = s.disp := rfl
@[simp] theorem State.setFlagged_keys (s : State) (x : Nibble) (r : Byte) (b : Bool) : (s.setFlagged x r b).keys = s.keys := rfl
@[simp] theorem State.setFlagged_ir (s : State) (x : Nibble) (r : Byte) (b : Bool) : (s.setFlagged x r b).ir = s.ir := rfl
@[simp] theorem State.setFlagged_fault (s : State) (x : Nibble) (r : Byte) (b : Bool) : (s.setFlagged x r b).fault = s.fault := rfl
@[simp] theorem State.setFlagged_mem (s : State) (x : Nibble) (r : Byte) (b : Bool) : (s.setFlagged x r b).mem = s.mem := rfl
@[simp] theorem State.setFlagged_font (s : State) (x : Nibble) (r : Byte) (b : Bool) : (s.setFlagged x r b).font = s.font := rfl
@[simp] theorem State.setFlagged_ipt (s : State) (x : Nibble) (r : Byte) (b : Bool) : (s.setFlagged x r b).ipt = s.ipt := rfl
@[simp] theorem State.setFlagged_slotsLeft (s : State) (x : Nibble) (r : Byte) (b : Bool) : (s.setFlagged x r b).slotsLeft = s.slotsLeft := rfl
@[simp] theorem State.setFlagged_audio (s : State) (x : Nibble) (r : Byte) (b : Bool) : (s.setFlagged x r b).audio = s.audio := rfl
@[simp] theorem State.setFlagged_tickNo (s : State) (x : Nibble) (r : Byte) (b : Bool) : (s.setFlagged x r b).tickNo = s.tickNo := rfl
@[simp] theorem State.setFlagged_rndNo (s : State) (x : Nibble) (r : Byte) (b : Bool) : (s.setFlagged x r b).rndNo = s.rndNo := rfl
@[simp] theorem State.setFlagged_kwNo (s : State) (x : Nibble) (r : Byte) (b : Bool) : (s.setFlagged x r b).kwNo = s.kwNo := rfl
@[simp] theorem State.setFlagged_memRead (s : State) (x : Nibble) (r : Byte) (b : Bool) (a : Nat) :
    (s.setFlagged x r b).memRead a = s.memRead a := rfl

end Sys2Proof.Machine
end

