-- ==== Sys2Proof/Laws/Display.lean ====
section
/-! SUPPORT. The laws of the display and of the blitter (10_state.md R21, 43_display.md R131, R132): what a
toggle, a sprite row and a whole sprite do to every pixel and to the collision flag. -/

namespace Sys2Proof.Machine

@[simp] theorem Display.pixel_clear (y x : Nat) : Display.pixel Display.clear y x = false := by
  unfold Display.pixel Display.clear
  split <;> simp

theorem Display.pixel_out {d : Display} {y x : Nat} (h : ¬ (y < 32 ∧ x < 64)) :
    Display.pixel d y x = false := by
  simp [Display.pixel, h]

/-- Two displays with the same pixels are the same. -/
theorem Display.ext_pixel {d e : Display}
    (h : ∀ y x, y < 32 → x < 64 → Display.pixel d y x = Display.pixel e y x) : d = e := by
  apply Vector.ext
  intro y hy
  apply Vector.ext
  intro x hx
  simpa [Display.pixel, hy, hx] using h y x hy hx

/-- A toggle inverts its pixel and no other. -/
theorem Display.pixel_toggle (d : Display) (y x y' x' : Nat) :
    Display.pixel (Display.toggle d y x) y' x'
      = (Display.pixel d y' x' ^^ decide (y' = y ∧ x' = x ∧ y < 32 ∧ x < 64)) := by
  unfold Display.toggle
  split
  · rename_i h
    by_cases h' : y' < 32 ∧ x' < 64
    · by_cases hy : y' = y
      · subst hy
        by_cases hx : x' = x
        · subst hx; simp [Display.pixel, h]
        · simp [Display.pixel, h', hx, Ne.symm hx]
      · simp [Display.pixel, h', hy, Ne.symm hy]
    · have : ¬ (y' = y ∧ x' = x ∧ y < 32 ∧ x < 64) := by rintro ⟨rfl, rfl, hh⟩; exact h' hh
      rw [Display.pixel_out h', Display.pixel_out h']; simp [this]
  · rename_i h
    have : ¬ (y' = y ∧ x' = x ∧ y < 32 ∧ x < 64) := by rintro ⟨_, _, hh⟩; exact h hh
    simp [this]

/-- Whether columns `col` to `col + n - 1` of a sprite row `b`, its column 0 at `x0`, set display column `x`
(R131 to R133): bit `7 - c` lands at `x0 + c`, and nothing lands past column 63. -/
def rowHits (b : Byte) (x0 col n x : Nat) : Bool :=
  decide (x0 + col ≤ x ∧ x < x0 + col + n ∧ x < 64) && b.getLsbD (7 - (x - x0))

theorem rowHits_zero (b : Byte) (x0 col x : Nat) : rowHits b x0 col 0 x = false := by
  simp only [rowHits, Nat.add_zero, Bool.and_eq_false_imp, decide_eq_true_eq]; omega

theorem rowHits_clipped {b : Byte} {x0 col n x : Nat} (h : 63 < x0 + col) : rowHits b x0 col n x = false := by
  simp only [rowHits, Bool.and_eq_false_imp, decide_eq_true_eq]; omega

theorem rowHits_succ {b : Byte} {x0 col n x : Nat} (h : x0 + col ≤ 63) :
    rowHits b x0 col (n + 1) x
      = (decide (x = x0 + col) && b.getLsbD (7 - col) || rowHits b x0 (col + 1) n x) := by
  by_cases hx : x = x0 + col
  · subst hx
    have : x0 + col < 64 := by omega
    simp [rowHits, this]
  · have : decide (x0 + col ≤ x ∧ x < x0 + col + (n + 1) ∧ x < 64)
        = decide (x0 + (col + 1) ≤ x ∧ x < x0 + (col + 1) + n ∧ x < 64) := by
      apply decide_eq_decide.2; omega
    simp only [rowHits, this, hx, decide_false, Bool.false_and, Bool.false_or]

/-- A sprite row toggles exactly the pixels it sets, all in its display row. -/
theorem Canvas.drawRow_pixel (b : Byte) (y x0 : Nat) (hy : y < 32) (n col : Nat) (c : Canvas) (y' x' : Nat) :
    Display.pixel (Canvas.drawRow b y x0 n col c).disp y' x'
      = (Display.pixel c.disp y' x' ^^ (decide (y' = y) && rowHits b x0 col n x')) := by
  induction n generalizing col c with
  | zero => simp [Canvas.drawRow, rowHits_zero]
  | succ n ih =>
    simp only [Canvas.drawRow]
    split
    · rename_i h; simp [rowHits_clipped h]
    · rename_i h
      have h63 : x0 + col ≤ 63 := by omega
      rw [ih, rowHits_succ h63]
      split
      · rename_i hb
        have hx64 : x0 + col < 64 := by omega
        simp only [Canvas.plot, Display.pixel_toggle, hy, hx64, and_true, hb, Bool.and_true]
        by_cases h1 : y' = y
        · by_cases h2 : x' = x0 + col
          · have : rowHits b x0 (col + 1) n x' = false := by
              simp only [rowHits, Bool.and_eq_false_imp, decide_eq_true_eq]; omega
            simp [h1, h2] at this ⊢; simp [this]
          · simp [h1, h2]
        · simp [h1]
      · rename_i hb
        simp only [Bool.not_eq_true] at hb
        simp [hb]

/-- The collision flag after a sprite row: set before, or some pixel the row sets was lit. -/
theorem Canvas.drawRow_hit (b : Byte) (y x0 : Nat) (n col : Nat) (c : Canvas) :
    (Canvas.drawRow b y x0 n col c).hit = true
      ↔ c.hit = true ∨ ∃ x, rowHits b x0 col n x = true ∧ Display.pixel c.disp y x = true := by
  induction n generalizing col c with
  | zero => simp [Canvas.drawRow, rowHits_zero]
  | succ n ih =>
    simp only [Canvas.drawRow]
    split
    · rename_i h; simp [rowHits_clipped h]
    · rename_i h
      have h63 : x0 + col ≤ 63 := by omega
      have hnot : ∀ x, rowHits b x0 (col + 1) n x = true → x ≠ x0 + col := by
        intro x hx; simp only [rowHits, Bool.and_eq_true, decide_eq_true_eq] at hx; omega
      rw [ih]
      split
      · rename_i hb
        have keep : ∀ x, rowHits b x0 (col + 1) n x = true →
            Display.pixel (c.plot y (x0 + col)).disp y x = Display.pixel c.disp y x := by
          intro x hx; simp [Canvas.plot, Display.pixel_toggle, hnot x hx]
        constructor
        · rintro (h1 | ⟨x, h1, h2⟩)
          · simp only [Canvas.plot, Bool.or_eq_true] at h1
            rcases h1 with h1 | h1
            · exact .inl h1
            · exact .inr ⟨x0 + col, by simp [rowHits_succ h63, hb], h1⟩
          · exact .inr ⟨x, by simp [rowHits_succ h63, h1], by rw [← keep x h1]; exact h2⟩
        · rintro (h1 | ⟨x, h1, h2⟩)
          · left; simp [Canvas.plot, h1]
          · rw [rowHits_succ h63] at h1
            simp only [Bool.or_eq_true, Bool.and_eq_true, decide_eq_true_eq] at h1
            rcases h1 with ⟨rfl, _⟩ | h1
            · left; simp [Canvas.plot, h2]
            · right; exact ⟨x, h1, by rw [keep x h1]; exact h2⟩
      · rename_i hb
        simp only [Bool.not_eq_true] at hb
        simp [rowHits_succ h63, hb]

/-- Whether rows `r` to `r + n - 1` of a sprite, its row 0 at display row `y0` and its column 0 at `x0`, set
pixel (`y`, `x`): the body is clipped at row 31 and column 63, and never wraps (R132). -/
def spriteHits (sprite : Nat → Byte) (x0 y0 r n y x : Nat) : Bool :=
  decide (y0 + r ≤ y ∧ y < y0 + r + n ∧ y < 32) && rowHits (sprite (y - y0)) x0 0 8 x

theorem spriteHits_zero (sprite : Nat → Byte) (x0 y0 r y x : Nat) :
    spriteHits sprite x0 y0 r 0 y x = false := by
  simp only [spriteHits, Bool.and_eq_false_imp, decide_eq_true_eq]; omega

theorem spriteHits_clipped {sprite : Nat → Byte} {x0 y0 r n y x : Nat} (h : 31 < y0 + r) :
    spriteHits sprite x0 y0 r n y x = false := by
  simp only [spriteHits, Bool.and_eq_false_imp, decide_eq_true_eq]; omega

theorem spriteHits_succ {sprite : Nat → Byte} {x0 y0 r n y x : Nat} (h : y0 + r ≤ 31) :
    spriteHits sprite x0 y0 r (n + 1) y x
      = (decide (y = y0 + r) && rowHits (sprite r) x0 0 8 x || spriteHits sprite x0 y0 (r + 1) n y x) := by
  by_cases hy : y = y0 + r
  · subst hy
    have : y0 + r < 32 := by omega
    simp [spriteHits, this]
  · have : decide (y0 + r ≤ y ∧ y < y0 + r + (n + 1) ∧ y < 32)
        = decide (y0 + (r + 1) ≤ y ∧ y < y0 + (r + 1) + n ∧ y < 32) := by
      apply decide_eq_decide.2; omega
    simp only [spriteHits, this, hy, decide_false, Bool.false_and, Bool.false_or]

/-- A sprite toggles exactly the pixels it sets. -/
theorem Canvas.drawRows_pixel (sprite : Nat → Byte) (x0 y0 n r : Nat) (c : Canvas) (y x : Nat) :
    Display.pixel (Canvas.drawRows sprite x0 y0 n r c).disp y x
      = (Display.pixel c.disp y x ^^ spriteHits sprite x0 y0 r n y x) := by
  induction n generalizing r c with
  | zero => simp [Canvas.drawRows, spriteHits_zero]
  | succ n ih =>
    simp only [Canvas.drawRows]
    split
    · rename_i h; simp [spriteHits_clipped h]
    · rename_i h
      have h31 : y0 + r ≤ 31 := by omega
      rw [ih, Canvas.drawRow_pixel _ _ _ (by omega), spriteHits_succ h31]
      by_cases hy : y = y0 + r
      · have : spriteHits sprite x0 y0 (r + 1) n y x = false := by
          simp only [spriteHits, Bool.and_eq_false_imp, decide_eq_true_eq]; omega
        simp [this]
      · simp [hy]

/-- The collision flag after a sprite: set before, or some pixel the sprite sets was lit (R131: global across
the whole draw). -/
theorem Canvas.drawRows_hit (sprite : Nat → Byte) (x0 y0 n r : Nat) (c : Canvas) :
    (Canvas.drawRows sprite x0 y0 n r c).hit = true
      ↔ c.hit = true ∨ ∃ y x, spriteHits sprite x0 y0 r n y x = true ∧ Display.pixel c.disp y x = true := by
  induction n generalizing r c with
  | zero => simp [Canvas.drawRows, spriteHits_zero]
  | succ n ih =>
    simp only [Canvas.drawRows]
    split
    · rename_i h; simp [spriteHits_clipped h]
    · rename_i h
      have h31 : y0 + r ≤ 31 := by omega
      have hy32 : y0 + r < 32 := by omega
      have keep : ∀ y x, spriteHits sprite x0 y0 (r + 1) n y x = true →
          Display.pixel (Canvas.drawRow (sprite r) (y0 + r) x0 8 0 c).disp y x = Display.pixel c.disp y x := by
        intro y x hyx
        have : y ≠ y0 + r := by
          simp only [spriteHits, Bool.and_eq_true, decide_eq_true_eq] at hyx; omega
        simp [Canvas.drawRow_pixel _ _ _ hy32, this]
      rw [ih, Canvas.drawRow_hit]
      constructor
      · rintro ((h1 | ⟨x, h1, h2⟩) | ⟨y, x, h1, h2⟩)
        · exact .inl h1
        · exact .inr ⟨y0 + r, x, by simp [spriteHits_succ h31, h1], h2⟩
        · exact .inr ⟨y, x, by simp [spriteHits_succ h31, h1], by rw [← keep y x h1]; exact h2⟩
      · rintro (h1 | ⟨y, x, h1, h2⟩)
        · exact .inl (.inl h1)
        · rw [spriteHits_succ h31] at h1
          simp only [Bool.or_eq_true, Bool.and_eq_true, decide_eq_true_eq] at h1
          rcases h1 with ⟨rfl, h1⟩ | h1
          · exact .inl (.inr ⟨x, h1, h2⟩)
          · exact .inr ⟨y, x, h1, by rw [keep y x h1]; exact h2⟩

end Sys2Proof.Machine
end

