-- ==== Sys2Proof/Laws/Encoding.lean ====
section
/-! SUPPORT. The fields of an instruction word as numbers (30_encoding.md R61), and what the formats put where:
every field is read back as it was written. -/

namespace Sys2Proof

theorem toNat_opOf (w : Word) : (opOf w).toNat = w.toNat / 4096 := by
  have := w.isLt
  simp only [opOf, BitVec.extractLsb'_toNat, Nat.shiftRight_eq_div_pow]; omega

theorem toNat_xOf (w : Word) : (xOf w).toNat = w.toNat / 256 % 16 := by
  simp [xOf, BitVec.extractLsb'_toNat, Nat.shiftRight_eq_div_pow]

theorem toNat_yOf (w : Word) : (yOf w).toNat = w.toNat / 16 % 16 := by
  simp [yOf, BitVec.extractLsb'_toNat, Nat.shiftRight_eq_div_pow]

theorem toNat_nOf (w : Word) : (nOf w).toNat = w.toNat % 16 := by
  simp [nOf, BitVec.extractLsb'_toNat]

theorem toNat_nnOf (w : Word) : (nnOf w).toNat = w.toNat % 256 := by
  simp [nnOf, BitVec.extractLsb'_toNat]

theorem toNat_nnnOf (w : Word) : (nnnOf w).toNat = w.toNat % 4096 := by
  simp [nnnOf, BitVec.extractLsb'_toNat]

theorem toNat_concat {m n : Nat} (a : BitVec m) (b : BitVec n) :
    (a ++ b).toNat = a.toNat * 2 ^ n + b.toNat := by
  rw [BitVec.toNat_append, ← Nat.shiftLeft_add_eq_or_of_lt b.isLt, Nat.shiftLeft_eq]

theorem toNat_fmtNNN (op : Nibble) (nnn : Addr12) :
    (fmtNNN op nnn).toNat = op.toNat * 4096 + nnn.toNat := toNat_concat op nnn

theorem toNat_fmtXNN (op x : Nibble) (nn : Byte) :
    (fmtXNN op x nn).toNat = (op.toNat * 16 + x.toNat) * 256 + nn.toNat := by
  refine (toNat_concat (op ++ x) nn).trans ?_
  rw [toNat_concat op x]; norm_num

theorem toNat_fmtXYN (op x y n : Nibble) :
    (fmtXYN op x y n).toNat = ((op.toNat * 16 + x.toNat) * 16 + y.toNat) * 16 + n.toNat := by
  refine (toNat_concat (op ++ x ++ y) n).trans ?_
  rw [toNat_concat (op ++ x) y, toNat_concat op x]; norm_num

theorem toNat_wordOfBytes (hi lo : Byte) : (wordOfBytes hi lo).toNat = hi.toNat * 256 + lo.toNat :=
  toNat_concat hi lo

@[simp] theorem opOf_fmtNNN (op : Nibble) (nnn : Addr12) : opOf (fmtNNN op nnn) = op := by
  apply BitVec.eq_of_toNat_eq
  have := op.isLt; have := nnn.isLt
  simp only [toNat_opOf, toNat_fmtNNN]; omega

@[simp] theorem nnnOf_fmtNNN (op : Nibble) (nnn : Addr12) : nnnOf (fmtNNN op nnn) = nnn := by
  apply BitVec.eq_of_toNat_eq
  have := op.isLt; have := nnn.isLt
  simp only [toNat_nnnOf, toNat_fmtNNN]; omega

@[simp] theorem opOf_fmtXNN (op x : Nibble) (nn : Byte) : opOf (fmtXNN op x nn) = op := by
  apply BitVec.eq_of_toNat_eq
  have := op.isLt; have := x.isLt; have := nn.isLt
  simp only [toNat_opOf, toNat_fmtXNN]; omega

@[simp] theorem xOf_fmtXNN (op x : Nibble) (nn : Byte) : xOf (fmtXNN op x nn) = x := by
  apply BitVec.eq_of_toNat_eq
  have := op.isLt; have := x.isLt; have := nn.isLt
  simp only [toNat_xOf, toNat_fmtXNN]; omega

@[simp] theorem nnOf_fmtXNN (op x : Nibble) (nn : Byte) : nnOf (fmtXNN op x nn) = nn := by
  apply BitVec.eq_of_toNat_eq
  have := op.isLt; have := x.isLt; have := nn.isLt
  simp only [toNat_nnOf, toNat_fmtXNN]; omega

@[simp] theorem opOf_fmtXYN (op x y n : Nibble) : opOf (fmtXYN op x y n) = op := by
  apply BitVec.eq_of_toNat_eq
  have := op.isLt; have := x.isLt; have := y.isLt; have := n.isLt
  simp only [toNat_opOf, toNat_fmtXYN]; omega

@[simp] theorem xOf_fmtXYN (op x y n : Nibble) : xOf (fmtXYN op x y n) = x := by
  apply BitVec.eq_of_toNat_eq
  have := op.isLt; have := x.isLt; have := y.isLt; have := n.isLt
  simp only [toNat_xOf, toNat_fmtXYN]; omega

@[simp] theorem yOf_fmtXYN (op x y n : Nibble) : yOf (fmtXYN op x y n) = y := by
  apply BitVec.eq_of_toNat_eq
  have := op.isLt; have := x.isLt; have := y.isLt; have := n.isLt
  simp only [toNat_yOf, toNat_fmtXYN]; omega

@[simp] theorem nOf_fmtXYN (op x y n : Nibble) : nOf (fmtXYN op x y n) = n := by
  apply BitVec.eq_of_toNat_eq
  have := op.isLt; have := x.isLt; have := y.isLt; have := n.isLt
  simp only [toNat_nOf, toNat_fmtXYN]; omega

/-- A word is the format of its own fields. -/
theorem fmtNNN_fields (w : Word) : fmtNNN (opOf w) (nnnOf w) = w := by
  apply BitVec.eq_of_toNat_eq
  simp only [toNat_fmtNNN, toNat_opOf, toNat_nnnOf]; omega

theorem fmtXNN_fields (w : Word) : fmtXNN (opOf w) (xOf w) (nnOf w) = w := by
  apply BitVec.eq_of_toNat_eq
  simp only [toNat_fmtXNN, toNat_opOf, toNat_xOf, toNat_nnOf]; omega

theorem fmtXYN_fields (w : Word) : fmtXYN (opOf w) (xOf w) (yOf w) (nOf w) = w := by
  apply BitVec.eq_of_toNat_eq
  simp only [toNat_fmtXYN, toNat_opOf, toNat_xOf, toNat_yOf, toNat_nOf]; omega

/-! ## The masks of the opcode table (R66), as numbers -/

theorem toNat_mask_op (w : Word) : (w &&& 0xF000#16).toNat = w.toNat / 4096 * 4096 := by
  have h : w &&& 0xF000#16 = (w >>> 12) <<< 12 := by
    ext i hi; interval_cases i <;> simp
  have := w.isLt
  rw [h]; simp [Nat.shiftRight_eq_div_pow, Nat.shiftLeft_eq]; omega

theorem toNat_mask_n (w : Word) : (w &&& 0x000F#16).toNat = w.toNat % 16 := by
  rw [BitVec.toNat_and]; exact Nat.and_two_pow_sub_one_eq_mod _ 4

theorem toNat_mask_nn (w : Word) : (w &&& 0x00FF#16).toNat = w.toNat % 256 := by
  rw [BitVec.toNat_and]; exact Nat.and_two_pow_sub_one_eq_mod _ 8

theorem toNat_mask_op_n (w : Word) : (w &&& 0xF00F#16).toNat = w.toNat / 4096 * 4096 + w.toNat % 16 := by
  have h : w &&& 0xF00F#16 = (w &&& 0xF000#16) ||| (w &&& 0x000F#16) := by
    ext i hi; interval_cases i <;> simp
  have hd : (w &&& 0xF000#16) &&& (w &&& 0x000F#16) = 0 := by
    ext i hi; interval_cases i <;> simp
  have := w.isLt
  rw [h, ← BitVec.add_eq_or_of_and_eq_zero _ _ hd, BitVec.toNat_add, toNat_mask_op, toNat_mask_n]
  omega

theorem toNat_mask_op_nn (w : Word) : (w &&& 0xF0FF#16).toNat = w.toNat / 4096 * 4096 + w.toNat % 256 := by
  have h : w &&& 0xF0FF#16 = (w &&& 0xF000#16) ||| (w &&& 0x00FF#16) := by
    ext i hi; interval_cases i <;> simp
  have hd : (w &&& 0xF000#16) &&& (w &&& 0x00FF#16) = 0 := by
    ext i hi; interval_cases i <;> simp
  have := w.isLt
  rw [h, ← BitVec.add_eq_or_of_and_eq_zero _ _ hd, BitVec.toNat_add, toNat_mask_op, toNat_mask_nn]
  omega

/-- The sixteen values of a nibble. -/
theorem Nibble.cases (a : Nibble) :
    a = 0x0 ∨ a = 0x1 ∨ a = 0x2 ∨ a = 0x3 ∨ a = 0x4 ∨ a = 0x5 ∨ a = 0x6 ∨ a = 0x7
      ∨ a = 0x8 ∨ a = 0x9 ∨ a = 0xA ∨ a = 0xB ∨ a = 0xC ∨ a = 0xD ∨ a = 0xE ∨ a = 0xF := by
  revert a; decide

/-- The two bytes of a word make the word again. -/
theorem wordOfBytes_bytes (w : Word) : wordOfBytes (w.extractLsb' 8 8) (w.extractLsb' 0 8) = w := by
  apply BitVec.eq_of_toNat_eq
  have := w.isLt
  simp only [toNat_wordOfBytes, BitVec.extractLsb'_toNat, Nat.shiftRight_eq_div_pow]; omega

/-- The decoder reads a word from its two bytes, high byte first. -/
theorem decodeBytes_bytesOfWord (w : Word) (rest : List Byte) :
    decodeBytes (bytesOfWord w ++ rest) = .ok (decode w, rest) := by
  simp [bytesOfWord, decodeBytes, wordOfBytes_bytes]

end Sys2Proof
end

