-- ==== Sys2Proof/Laws/Memory.lean ====
section
/-! SUPPORT. The laws of memory: what a read gives after a write, and that every memory operation keeps the
canonical form (20_memory.md R42, R44, R51). -/

namespace Sys2Proof.Machine

theorem Memory.find_put (m : Memory) (a b' : Nat) (b : Byte) :
    Memory.find (Memory.put m a b) b' = if b' = a then some b else Memory.find m b' := by
  induction m with
  | nil => simp [Memory.put, Memory.find, eq_comm]
  | cons c m ih =>
    obtain ⟨k, x⟩ := c
    simp only [Memory.put]
    split
    · by_cases h : b' = a
      · simp [Memory.find, h]
      · simp [Memory.find, h, Ne.symm h]
    · split
      · subst_vars; by_cases h : b' = k <;> simp [Memory.find, h, eq_comm]
      · by_cases h : k = b'
        · subst h; simp [Memory.find, Ne.symm ‹¬a = k›]
        · simp [Memory.find, h, ih]

theorem Memory.find_drop (m : Memory) (a b' : Nat) :
    Memory.find (Memory.drop m a) b' = if b' = a then none else Memory.find m b' := by
  induction m with
  | nil => simp [Memory.drop, Memory.find]
  | cons c m ih =>
    obtain ⟨k, x⟩ := c
    simp only [Memory.drop] at ih ⊢
    by_cases hk : k = a
    · subst hk; simp only [bne_self_eq_false, Bool.false_eq_true, not_false_eq_true, List.filter_cons_of_neg, ih]
      by_cases h : b' = k
      · simp [h]
      · simp [h, Memory.find, Ne.symm h]
    · simp only [bne_iff_ne, ne_eq, hk, not_false_eq_true, List.filter_cons_of_pos, Memory.find, ih]
      by_cases h : k = b'
      · subst h; simp [hk]
      · simp [h]

/-- A read after a write: the byte written at that address, the old byte at every other. -/
theorem Memory.read_write (bg : Nat → Byte) (m : Memory) (a a' : Nat) (b : Byte) :
    Memory.read bg (Memory.write bg m a b) a' = if a' = a then b else Memory.read bg m a' := by
  unfold Memory.read Memory.write
  split
  · by_cases h : a' = a <;> simp [Memory.find_drop, *]
  · by_cases h : a' = a <;> simp [Memory.find_put, h]

theorem Memory.mem_put {m : Memory} {a : Nat} {b : Byte} {c : Host.Cell} (h : c ∈ Memory.put m a b) :
    c = (a, b) ∨ c ∈ m := by
  induction m with
  | nil => simpa [Memory.put] using h
  | cons d m ih =>
    obtain ⟨k, x⟩ := d
    simp only [Memory.put] at h
    split at h
    · simpa using h
    · split at h
      · rcases List.mem_cons.1 h with h | h <;> simp [h]
      · rcases List.mem_cons.1 h with h | h
        · simp [h]
        · rcases ih h with h | h <;> simp [h]

theorem Memory.put_sorted {m : Memory} (a : Nat) (b : Byte)
    (h : m.Pairwise (fun p q => p.1 < q.1)) : (Memory.put m a b).Pairwise (fun p q => p.1 < q.1) := by
  induction m with
  | nil => simp [Memory.put]
  | cons d m ih =>
    obtain ⟨k, x⟩ := d
    obtain ⟨h1, h2⟩ := List.pairwise_cons.1 h
    simp only [Memory.put]
    split
    · rename_i hlt
      refine List.pairwise_cons.2 ⟨?_, h⟩
      intro c hc
      rcases List.mem_cons.1 hc with rfl | hc
      · exact hlt
      · exact hlt.trans (h1 c hc)
    · split
      · subst_vars; exact List.pairwise_cons.2 ⟨h1, h2⟩
      · refine List.pairwise_cons.2 ⟨?_, ih h2⟩
        intro c hc
        rcases Memory.mem_put hc with rfl | hc
        · simp only; omega
        · exact h1 c hc

/-- Writing a byte inside the address space keeps the canonical form. -/
theorem Memory.write_wf {bg : Nat → Byte} {m : Memory} {a : Nat} (b : Byte) (h : Memory.wf bg m)
    (ha : a < Config.memSize) : Memory.wf bg (Memory.write bg m a b) := by
  unfold Memory.write
  split
  · exact ⟨h.1.filter _, fun c hc => h.2 c (List.mem_of_mem_filter hc)⟩
  · refine ⟨Memory.put_sorted a b h.1, fun c hc => ?_⟩
    rcases Memory.mem_put hc with rfl | hc
    · exact ⟨ha, ‹_›⟩
    · exact h.2 c hc

/-- Restoring the font keeps the canonical form. -/
theorem Memory.restoreFont_wf {bg : Nat → Byte} {m : Memory} (h : Memory.wf bg m) :
    Memory.wf bg (Memory.restoreFont m) :=
  ⟨h.1.filter _, fun c hc => h.2 c (List.mem_of_mem_filter hc)⟩

/-- Restoring the font: the bytes below 0x050 read as unlisted, the others as before (R211). -/
theorem Memory.read_restoreFont (bg : Nat → Byte) (m : Memory) (a : Nat) :
    Memory.read bg (Memory.restoreFont m) a = if a < 80 then bg a else Memory.read bg m a := by
  have key : Memory.find (Memory.restoreFont m) a = if a < 80 then none else Memory.find m a := by
    induction m with
    | nil => simp [Memory.restoreFont, Memory.find]
    | cons c m ih =>
      obtain ⟨k, x⟩ := c
      simp only [Memory.restoreFont] at ih ⊢
      by_cases hk : 80 ≤ k
      · simp only [hk, decide_true, List.filter_cons_of_pos, Memory.find, ih]
        by_cases h : k = a
        · subst h; simp [Nat.not_lt.2 hk]
        · simp [h]
      · simp only [hk, decide_false, Bool.false_eq_true, not_false_eq_true, List.filter_cons_of_neg, ih]
        by_cases h : a < 80
        · simp [h]
        · simp only [h, if_false, Memory.find]
          rw [if_neg]; omega
  unfold Memory.read
  rw [key]
  split <;> simp

/-! ## The same for the state -/

theorem State.memRead_memWrite (s : State) (a a' : Nat) (b : Byte) :
    (s.memWrite a b).memRead a' = if a' = a then b else s.memRead a' :=
  Memory.read_write _ _ _ _ _

theorem State.memRead_setMem (s : State) (m : Memory) (a : Nat) :
    (s.setMem m).memRead a = Memory.read (Memory.unlisted s.font) m a := rfl

/-- A reset restores the 80 font bytes and no other byte (R211). -/
theorem State.memRead_resetEvent (s : State) (a : Nat) :
    s.resetEvent.memRead a = if a < 80 then Memory.unlisted s.font a else s.memRead a :=
  Memory.read_restoreFont _ _ _

theorem Memory.unlisted_font (font : Vector Byte 80) {a : Nat} (h : a < 80) :
    Memory.unlisted font a = font[a] := by simp [Memory.unlisted, h]

theorem Memory.unlisted_zero (font : Vector Byte 80) {a : Nat} (h : 80 ≤ a) : Memory.unlisted font a = 0 := by
  simp [Memory.unlisted, Nat.not_lt.2 h]

/-- A sequence of bytes written from `a` on: those bytes there, every other byte as before. -/
theorem State.memRead_memWriteList (s : State) (a a' : Nat) (l : List Byte) :
    (s.memWriteList a l).memRead a'
      = if a ≤ a' ∧ a' < a + l.length then l.getD (a' - a) 0 else s.memRead a' := by
  induction l generalizing s a with
  | nil => simp only [State.memWriteList, List.length_nil]; rw [if_neg]; omega
  | cons b l ih =>
    simp only [State.memWriteList, ih, State.memRead_memWrite, List.length_cons]
    by_cases h1 : a' = a
    · subst h1; rw [if_neg (by omega), if_pos rfl, if_pos (by omega)]; simp
    · by_cases h2 : a + 1 ≤ a' ∧ a' < a + 1 + l.length
      · rw [if_pos h2, if_pos (by omega)]
        have : a' - a = (a' - (a + 1)) + 1 := by omega
        rw [this]; simp
      · rw [if_neg h2, if_neg h1, if_neg (by omega)]

/-- `V[0..n-1]` stored from `I` on, every other byte as before. -/
theorem State.memRead_storeRegs (s : State) (n a : Nat) :
    (s.storeRegs n).memRead a
      = if s.i.toNat ≤ a ∧ a < s.i.toNat + n then s.reg (BitVec.ofNat 4 (a - s.i.toNat)) else s.memRead a := by
  induction n with
  | zero => simp only [State.storeRegs]; rw [if_neg]; omega
  | succ n ih =>
    simp only [State.storeRegs, State.memRead_memWrite, ih, State.effAddr]
    by_cases h1 : a = s.i.toNat + n
    · subst h1; rw [if_pos rfl, if_pos (by omega)]; simp
    · by_cases h2 : s.i.toNat ≤ a ∧ a < s.i.toNat + n
      · rw [if_neg h1, if_pos h2, if_pos (by omega)]
      · rw [if_neg h1, if_neg h2, if_neg (by omega)]

theorem State.memWrite_wf {s : State} {a : Nat} (b : Byte)
    (h : Memory.wf (Memory.unlisted s.font) s.mem) (ha : a < Config.memSize) :
    Memory.wf (Memory.unlisted s.font) (s.memWrite a b).mem := Memory.write_wf b h ha

theorem State.memWriteList_wf {s : State} {a : Nat} (l : List Byte)
    (h : Memory.wf (Memory.unlisted s.font) s.mem) (ha : a + l.length ≤ Config.memSize) :
    Memory.wf (Memory.unlisted s.font) (s.memWriteList a l).mem := by
  induction l generalizing s a with
  | nil => exact h
  | cons b l ih =>
    simp only [List.length_cons] at ha
    exact ih (s := s.memWrite a b) (State.memWrite_wf b h (by omega)) (by omega)

theorem State.storeRegs_wf {s : State} {n : Nat}
    (h : Memory.wf (Memory.unlisted s.font) s.mem) (ha : s.i.toNat + n ≤ Config.memSize) :
    Memory.wf (Memory.unlisted s.font) (s.storeRegs n).mem := by
  induction n with
  | zero => exact h
  | succ n ih =>
    have := State.memWrite_wf (s := s.storeRegs n) (a := s.effAddr n) (s.reg (BitVec.ofNat 4 n))
      (by simpa using ih (by omega)) (by simp only [State.effAddr]; omega)
    simpa [State.storeRegs] using this

theorem reset_memory_wf : Memory.wf (Memory.unlisted State.reset.font) State.reset.mem := by decide

end Sys2Proof.Machine
end

