-- ==== Sys2Proof/Laws/PerInstr.lean ====
section
/-! SUPPORT. A statement made for each instruction: the encoder puts a word into the unknown space of
30_encoding.md R67 exactly for the unknown entry. -/

namespace Sys2Proof.Laws.UnknownSpace

/-- The word of a well-formed instruction is one that R67 lists exactly when the instruction is the unknown
entry. -/
def Statement (i : Instr) : Prop :=
  i.wellFormed = true → unknownWord (encode i) = decide (tableIndex i = 0)

/-- A word outside families 0, 8, E and F is not listed. -/
theorem known_of_op {w : Word} (h : 1 ≤ w.toNat / 4096 ∧ w.toNat / 4096 ≤ 13 ∧ w.toNat / 4096 ≠ 8) :
    unknownWord w = false := by
  simp [unknownWord]; omega

theorem cls : Statement (.cls) := by
  intro _; decide

theorem ret : Statement (.ret) := by
  intro _; decide

theorem jmp (nnn : Addr12) : Statement (.jmp nnn) := by
  intro _
  have h0 := nnn.isLt
  refine (known_of_op ?_).trans rfl
  simp only [encode, toNat_fmtNNN, BitVec.toNat_ofNat]; omega

theorem call (nnn : Addr12) : Statement (.call nnn) := by
  intro _
  have h0 := nnn.isLt
  refine (known_of_op ?_).trans rfl
  simp only [encode, toNat_fmtNNN, BitVec.toNat_ofNat]; omega

theorem seImm (x : Nibble) (nn : Byte) : Statement (.seImm x nn) := by
  intro _
  have h0 := x.isLt
  have h1 := nn.isLt
  refine (known_of_op ?_).trans rfl
  simp only [encode, toNat_fmtXNN, BitVec.toNat_ofNat]; omega

theorem sneImm (x : Nibble) (nn : Byte) : Statement (.sneImm x nn) := by
  intro _
  have h0 := x.isLt
  have h1 := nn.isLt
  refine (known_of_op ?_).trans rfl
  simp only [encode, toNat_fmtXNN, BitVec.toNat_ofNat]; omega

theorem seReg (x y k : Nibble) : Statement (.seReg x y k) := by
  intro _
  have h0 := x.isLt
  have h1 := y.isLt
  have h2 := k.isLt
  refine (known_of_op ?_).trans rfl
  simp only [encode, toNat_fmtXYN, BitVec.toNat_ofNat]; omega

theorem ldImm (x : Nibble) (nn : Byte) : Statement (.ldImm x nn) := by
  intro _
  have h0 := x.isLt
  have h1 := nn.isLt
  refine (known_of_op ?_).trans rfl
  simp only [encode, toNat_fmtXNN, BitVec.toNat_ofNat]; omega

theorem addImm (x : Nibble) (nn : Byte) : Statement (.addImm x nn) := by
  intro _
  have h0 := x.isLt
  have h1 := nn.isLt
  refine (known_of_op ?_).trans rfl
  simp only [encode, toNat_fmtXNN, BitVec.toNat_ofNat]; omega

theorem ldReg (x y : Nibble) : Statement (.ldReg x y) := by
  intro _
  have h0 := x.isLt
  have h1 := y.isLt
  simp [unknownWord, encode, tableIndex, toNat_fmtXYN]; omega

theorem orReg (x y : Nibble) : Statement (.orReg x y) := by
  intro _
  have h0 := x.isLt
  have h1 := y.isLt
  simp [unknownWord, encode, tableIndex, toNat_fmtXYN]; omega

theorem andReg (x y : Nibble) : Statement (.andReg x y) := by
  intro _
  have h0 := x.isLt
  have h1 := y.isLt
  simp [unknownWord, encode, tableIndex, toNat_fmtXYN]; omega

theorem xorReg (x y : Nibble) : Statement (.xorReg x y) := by
  intro _
  have h0 := x.isLt
  have h1 := y.isLt
  simp [unknownWord, encode, tableIndex, toNat_fmtXYN]; omega

theorem addReg (x y : Nibble) : Statement (.addReg x y) := by
  intro _
  have h0 := x.isLt
  have h1 := y.isLt
  simp [unknownWord, encode, tableIndex, toNat_fmtXYN]; omega

theorem subReg (x y : Nibble) : Statement (.subReg x y) := by
  intro _
  have h0 := x.isLt
  have h1 := y.isLt
  simp [unknownWord, encode, tableIndex, toNat_fmtXYN]; omega

theorem shr (x y : Nibble) : Statement (.shr x y) := by
  intro _
  have h0 := x.isLt
  have h1 := y.isLt
  simp [unknownWord, encode, tableIndex, toNat_fmtXYN]; omega

theorem subn (x y : Nibble) : Statement (.subn x y) := by
  intro _
  have h0 := x.isLt
  have h1 := y.isLt
  simp [unknownWord, encode, tableIndex, toNat_fmtXYN]; omega

theorem shl (x y : Nibble) : Statement (.shl x y) := by
  intro _
  have h0 := x.isLt
  have h1 := y.isLt
  simp [unknownWord, encode, tableIndex, toNat_fmtXYN]; omega

theorem sneReg (x y k : Nibble) : Statement (.sneReg x y k) := by
  intro _
  have h0 := x.isLt
  have h1 := y.isLt
  have h2 := k.isLt
  refine (known_of_op ?_).trans rfl
  simp only [encode, toNat_fmtXYN, BitVec.toNat_ofNat]; omega

theorem ldI (nnn : Addr12) : Statement (.ldI nnn) := by
  intro _
  have h0 := nnn.isLt
  refine (known_of_op ?_).trans rfl
  simp only [encode, toNat_fmtNNN, BitVec.toNat_ofNat]; omega

theorem jmpV0 (nnn : Addr12) : Statement (.jmpV0 nnn) := by
  intro _
  have h0 := nnn.isLt
  refine (known_of_op ?_).trans rfl
  simp only [encode, toNat_fmtNNN, BitVec.toNat_ofNat]; omega

theorem rnd (x : Nibble) (nn : Byte) : Statement (.rnd x nn) := by
  intro _
  have h0 := x.isLt
  have h1 := nn.isLt
  refine (known_of_op ?_).trans rfl
  simp only [encode, toNat_fmtXNN, BitVec.toNat_ofNat]; omega

theorem drw (x y n : Nibble) : Statement (.drw x y n) := by
  intro _
  have h0 := x.isLt
  have h1 := y.isLt
  have h2 := n.isLt
  refine (known_of_op ?_).trans rfl
  simp only [encode, toNat_fmtXYN, BitVec.toNat_ofNat]; omega

theorem skp (x : Nibble) : Statement (.skp x) := by
  intro _
  have h0 := x.isLt
  simp [unknownWord, encode, tableIndex, toNat_fmtXNN]; omega

theorem sknp (x : Nibble) : Statement (.sknp x) := by
  intro _
  have h0 := x.isLt
  simp [unknownWord, encode, tableIndex, toNat_fmtXNN]; omega

theorem ldVxDT (x : Nibble) : Statement (.ldVxDT x) := by
  intro _
  have h0 := x.isLt
  simp [unknownWord, encode, tableIndex, toNat_fmtXNN]; omega

theorem ldVxK (x : Nibble) : Statement (.ldVxK x) := by
  intro _
  have h0 := x.isLt
  simp [unknownWord, encode, tableIndex, toNat_fmtXNN]; omega

theorem ldDTVx (x : Nibble) : Statement (.ldDTVx x) := by
  intro _
  have h0 := x.isLt
  simp [unknownWord, encode, tableIndex, toNat_fmtXNN]; omega

theorem ldSTVx (x : Nibble) : Statement (.ldSTVx x) := by
  intro _
  have h0 := x.isLt
  simp [unknownWord, encode, tableIndex, toNat_fmtXNN]; omega

theorem addI (x : Nibble) : Statement (.addI x) := by
  intro _
  have h0 := x.isLt
  simp [unknownWord, encode, tableIndex, toNat_fmtXNN]; omega

theorem ldF (x : Nibble) : Statement (.ldF x) := by
  intro _
  have h0 := x.isLt
  simp [unknownWord, encode, tableIndex, toNat_fmtXNN]; omega

theorem ldB (x : Nibble) : Statement (.ldB x) := by
  intro _
  have h0 := x.isLt
  simp [unknownWord, encode, tableIndex, toNat_fmtXNN]; omega

theorem store (x : Nibble) : Statement (.store x) := by
  intro _
  have h0 := x.isLt
  simp [unknownWord, encode, tableIndex, toNat_fmtXNN]; omega

theorem load (x : Nibble) : Statement (.load x) := by
  intro _
  have h0 := x.isLt
  simp [unknownWord, encode, tableIndex, toNat_fmtXNN]; omega

theorem unknown (w : Word) : Statement (.unknown w) := by
  intro h; simpa [encode, tableIndex, Instr.wellFormed] using h

end Sys2Proof.Laws.UnknownSpace
end

