-- ==== Sys2Proof/Laws/Registers.lean ====
section
/-! SUPPORT. The laws of the general registers and of the call stack (10_state.md R10, R14, R18, R19). -/

namespace Sys2Proof.Machine

/-- A register read after a register write. -/
theorem State.reg_setReg (s : State) (x y : Nibble) (b : Byte) :
    (s.setReg x b).reg y = if y = x then b else s.reg y := by
  have e : x.toNat = y.toNat ↔ y = x := by rw [BitVec.toNat_inj, eq_comm]
  simp [State.reg, State.setReg, Vector.getElem_set, e]

@[simp] theorem State.reg_setReg_same (s : State) (x : Nibble) (b : Byte) : (s.setReg x b).reg x = b := by
  simp [State.reg_setReg]

theorem State.reg_setReg_other (s : State) {x y : Nibble} (b : Byte) (h : y ≠ x) :
    (s.setReg x b).reg y = s.reg y := by
  simp [State.reg_setReg, h]

/-- After a reset every register reads as 0 (R31). -/
@[simp] theorem State.reg_resetEvent (s : State) (x : Nibble) : s.resetEvent.reg x = 0 := by
  simp [State.reg]

/-- After a reset no entry of the stack is valid, every entry is 0, and the depth is as before (R31). -/
@[simp] theorem CallStack.sp_fresh (d : Nat) : (CallStack.fresh d).sp = 0 := rfl

@[simp] theorem CallStack.depth_fresh (d : Nat) : (CallStack.fresh d).depth = d := by
  simp [CallStack.fresh, CallStack.depth]

@[simp] theorem CallStack.entries_fresh (d : Nat) : (CallStack.fresh d).entries = List.replicate d 0 := by
  simp [CallStack.fresh, CallStack.entries]

/-- A result and then a flag: VF holds the flag, whatever the destination; the destination holds the result
unless it is VF; every other register is as it was (R14). -/
theorem State.reg_setFlagged (s : State) (x y : Nibble) (r : Byte) (f : Bool) :
    (s.setFlagged x r f).reg y = if y = vf then flagByte f else if y = x then r else s.reg y := by
  simp [State.setFlagged, State.reg_setReg]

theorem flagByte_zero_or_one (f : Bool) : flagByte f = 0 ∨ flagByte f = 1 := by cases f <;> simp [flagByte]

/-- `V[0..n-1]` loaded from `I` on, every other register as before. -/
theorem State.reg_loadRegs (s : State) {n : Nat} (hn : n ≤ 16) (x : Nibble) :
    (s.loadRegs n).reg x = if x.toNat < n then s.memRead (s.effAddr x.toNat) else s.reg x := by
  induction n with
  | zero => simp [State.loadRegs]
  | succ n ih =>
    have hx := x.isLt
    simp only [State.loadRegs, State.reg_setReg, ih (by omega)]
    by_cases h : x = BitVec.ofNat 4 n
    · subst h
      have : (BitVec.ofNat 4 n).toNat = n := by simp; omega
      simp [this]
    · have hne : x.toNat ≠ n := by
        intro e; apply h; apply BitVec.eq_of_toNat_eq; simp [← e]
      simp only [h, if_false]
      by_cases h2 : x.toNat < n
      · rw [if_pos h2, if_pos (by omega)]
      · rw [if_neg h2, if_neg (by omega)]

/-- `Push`: an overflow when every entry is valid, else one more valid entry, written at `STACK[SP]`. -/
theorem CallStack.push_cases (k : CallStack) (a : Word) :
    (k.sp = k.depth ∧ k.push a = none) ∨
      (k.sp < k.depth ∧ ∃ k', k.push a = some k' ∧ k'.sp = k.sp + 1 ∧ k'.depth = k.depth ∧
        k'.entries = k.entries.set k.sp a) := by
  obtain ⟨live, dead⟩ := k
  cases dead with
  | nil => left; simp [CallStack.sp, CallStack.depth, CallStack.push]
  | cons d rest =>
    right
    refine ⟨by simp [CallStack.sp, CallStack.depth], _, rfl, ?_, ?_, ?_⟩
    · simp [CallStack.sp]
    · simp [CallStack.depth]; omega
    · simp [CallStack.entries, CallStack.sp]

/-- `Pop`: an underflow when no entry is valid, else one valid entry less, `STACK[SP]` the result, every entry
keeping its bits. -/
theorem CallStack.pop_cases (k : CallStack) :
    (k.sp = 0 ∧ k.pop = none) ∨
      (0 < k.sp ∧ ∃ a k', k.pop = some (a, k') ∧ k'.sp + 1 = k.sp ∧ k'.depth = k.depth ∧
        k'.entries = k.entries ∧ k.entries[k'.sp]? = some a) := by
  obtain ⟨live, dead⟩ := k
  cases live with
  | nil => left; simp [CallStack.sp, CallStack.pop]
  | cons a rest =>
    right
    refine ⟨by simp [CallStack.sp], a, _, rfl, ?_, ?_, ?_, ?_⟩
    · simp [CallStack.sp]
    · simp [CallStack.depth]; omega
    · simp [CallStack.entries]
    · simp [CallStack.entries, CallStack.sp]

/-- What is pushed is what is popped, and the entries below are untouched. -/
theorem CallStack.pop_push {k k' : CallStack} {a : Word} (h : k.push a = some k') :
    ∃ k'', k'.pop = some (a, k'') ∧ k''.live = k.live := by
  obtain ⟨live, dead⟩ := k
  cases dead with
  | nil => simp [CallStack.push] at h
  | cons d rest =>
    simp only [CallStack.push, Option.some.injEq] at h
    subst h
    exact ⟨_, rfl, rfl⟩

end Sys2Proof.Machine
end

