-- ==== Sys2Proof/Laws/Step.lean ====
section
/-! SUPPORT. What the shared ends of an instruction and of a step can do, said once (45_engine.md R157, R159;
60_exceptions.md R183), and the frames of the updates. -/

namespace Sys2Proof.Machine

/-! ## The ends of an instruction and of a step -/

@[simp] theorem State.checked_true (s t : State) (c : Fault) (n : Nat) : s.checked true c n t = .next t := rfl

@[simp] theorem State.checked_false (s t : State) (c : Fault) (n : Nat) :
    s.checked false c n t = .next (s.raise c n) := rfl

/-! The code of each cause (R181), and that a code names one cause. -/

@[simp] theorem Fault.code_stackUnderflow : Fault.code .stackUnderflow = 1 := rfl
@[simp] theorem Fault.code_stackOverflow : Fault.code .stackOverflow = 2 := rfl
@[simp] theorem Fault.code_fetchOutOfRange : Fault.code .fetchOutOfRange = 3 := rfl
@[simp] theorem Fault.code_memOutOfRange : Fault.code .memOutOfRange = 4 := rfl
@[simp] theorem Fault.code_keyIndexOutOfRange : Fault.code .keyIndexOutOfRange = 5 := rfl

theorem Fault.code_injective {c d : Fault} (h : c.code = d.code) : c = d := by
  cases c <;> cases d <;> simp_all

/-- A checked instruction takes its effect where the check holds, and raises its fault where it does not. -/
theorem State.checked_cases (s t : State) (ok : Bool) (c : Fault) (n : Nat) :
    (ok = true ∧ s.checked ok c n t = .next t) ∨ (ok = false ∧ s.checked ok c n t = .next (s.raise c n)) := by
  cases ok <;> simp

/-- The range check of an access: its last byte is inside the 4096 bytes (R119). -/
@[simp] theorem State.accessFits_eq_true (s : State) (k : Nat) :
    s.accessFits k = true ↔ s.effAddr k ≤ 0x0FFF := by simp [State.accessFits]

@[simp] theorem State.accessFits_eq_false (s : State) (k : Nat) :
    s.accessFits k = false ↔ 0x0FFF < s.effAddr k := by simp [State.accessFits]

/-- The range check of a sprite: it has no rows, or its last byte is inside the 4096 bytes (R131, R135). -/
theorem State.spriteFits_eq_true (s : State) (n : Nat) :
    s.spriteFits n = true ↔ n = 0 ∨ s.effAddr (n - 1) ≤ 0x0FFF := by simp [State.spriteFits]

theorem State.spriteFits_eq_false (s : State) (n : Nat) :
    s.spriteFits n = false ↔ n ≠ 0 ∧ 0x0FFF < s.effAddr (n - 1) := by simp [State.spriteFits]

@[simp] theorem State.settle_of_none {s t : State} (h : t.fault = none) : s.settle t = t := by
  simp [State.settle, h]

@[simp] theorem State.settle_of_some {s t : State} {r : FaultRecord} (h : t.fault = some r) :
    s.settle t = s.enterFault r := by
  simp [State.settle, h]

theorem State.settle_fault (s t : State) : (s.settle t).fault = t.fault := by
  cases h : t.fault <;> simp [h]

@[simp] theorem State.atSlot_fault (s : State) : s.atSlot.fault = s.fault := by
  unfold State.atSlot; split <;> simp

@[simp] theorem State.atSlot_pc (s : State) : s.atSlot.pc = s.pc := by
  unfold State.atSlot; split <;> simp

@[simp] theorem State.atSlot_ir (s : State) : s.atSlot.ir = s.ir := by
  unfold State.atSlot; split <;> simp

@[simp] theorem State.atSlot_mem (s : State) : s.atSlot.mem = s.mem := by
  unfold State.atSlot; split <;> simp

@[simp] theorem State.atSlot_font (s : State) : s.atSlot.font = s.font := by
  unfold State.atSlot; split <;> simp

@[simp] theorem State.atSlot_ipt (s : State) : s.atSlot.ipt = s.ipt := by
  unfold State.atSlot; split <;> simp

@[simp] theorem State.atSlot_stack (s : State) : s.atSlot.stack = s.stack := by
  unfold State.atSlot; split <;> simp

@[simp] theorem State.atSlot_memRead (s : State) (a : Nat) : s.atSlot.memRead a = s.memRead a := by
  simp [State.memRead]

/-- Inside a tick a slot opens nothing. -/
theorem State.atSlot_of_ne {s : State} (h : s.slotsLeft ≠ 0) : s.atSlot = s := by simp [State.atSlot, h]

/-- Where the budget is spent, a slot opens the next tick. -/
theorem State.atSlot_of_eq {s : State} (h : s.slotsLeft = 0) :
    s.atSlot = s.openTick (Config.keysIn s.tickNo) := by simp [State.atSlot, h]

/-- What the fetch-decode-execute of one instruction can answer: a fetch fault, or the settled outcome of the
decoded instruction. -/
theorem instrStep_cases (s : State) :
    (s.fetchWord = none ∧ instrStep s = .next s.raiseFetch) ∨
      ∃ w, s.fetchWord = some w ∧ instrStep s = s.settleOutcome (exec (decode w) (s.fetched w)) := by
  unfold instrStep
  cases s.fetchWord with
  | none => exact .inl ⟨rfl, rfl⟩
  | some w => exact .inr ⟨w, rfl, rfl⟩

/-- What a step can answer: the idle tick of a faulted machine, a tick of no slots, a fetch fault, or the
settled outcome of the decoded instruction. -/
theorem step_cases (s : State) :
    (∃ r, s.fault = some r ∧ step s = .next s.idleTick) ∨
      (s.fault = none ∧ s.atSlot.slotsLeft = 0 ∧ step s = .next s.atSlot) ∨
      (s.fault = none ∧ s.atSlot.slotsLeft ≠ 0 ∧ s.atSlot.fetchWord = none
        ∧ step s = .next s.atSlot.raiseFetch) ∨
      ∃ w, s.fault = none ∧ s.atSlot.slotsLeft ≠ 0 ∧ s.atSlot.fetchWord = some w
        ∧ step s = s.atSlot.settleOutcome (exec (decode w) (s.atSlot.fetched w)) := by
  cases hf : s.fault with
  | some r => exact .inl ⟨r, rfl, by simp [step, runSlot, hf]⟩
  | none =>
    right
    by_cases h0 : s.atSlot.slotsLeft = 0
    · exact .inl ⟨rfl, h0, by simp [step, runSlot, hf, h0]⟩
    · right
      have hs : step s = instrStep s.atSlot := by simp [step, runSlot, hf, h0]
      rw [hs]
      rcases instrStep_cases s.atSlot with ⟨h1, h2⟩ | ⟨w, h1, h2⟩
      · exact .inl ⟨rfl, h0, h1, h2⟩
      · exact .inr ⟨w, rfl, h0, h1, h2⟩

/-- The fetch reads where `PC` is at most 0x0FFE, and its word is the two bytes there (20_memory.md R43). -/
theorem State.fetchWord_of_le {s : State} (h : s.pc.toNat ≤ 0x0FFE) :
    s.fetchWord = some (wordOfBytes (s.memRead s.pc.toNat) (s.memRead (s.pc.toNat + 1))) := by
  simp [State.fetchWord, h]

theorem State.fetchWord_of_gt {s : State} (h : 0x0FFE < s.pc.toNat) : s.fetchWord = none := by
  simp [State.fetchWord, Nat.not_le.2 h]

/-! ## Frames -/

theorem ChangesOnly.refl (P : Part → Prop) (s : State) : ChangesOnly P s s := by
  intro p _; cases p <;> simp [Part.Same]

theorem ChangesOnly.mono {P Q : Part → Prop} {s t : State} (h : ChangesOnly P s t) (hPQ : ∀ p, P p → Q p) :
    ChangesOnly Q s t := fun p hp => h p (fun hq => hp (hPQ p hq))

theorem Part.Same.trans {p : Part} {s t u : State} (h1 : p.Same s t) (h2 : p.Same t u) : p.Same s u := by
  cases p <;> simp only [Part.Same] at * <;> simp [h1, h2]

theorem ChangesOnly.trans {P : Part → Prop} {s t u : State} (h1 : ChangesOnly P s t) (h2 : ChangesOnly P t u) :
    ChangesOnly P s u := fun p hp => (h1 p hp).trans (h2 p hp)

theorem State.setPc_frame (s : State) (w : Word) : ChangesOnly (fun p => p = .pc) s (s.setPc w) := by
  intro p hp; cases p <;> simp_all [Part.Same]

theorem State.setIndex_frame (s : State) (w : Word) : ChangesOnly (fun p => p = .index) s (s.setIndex w) := by
  intro p hp; cases p <;> simp_all [Part.Same]

theorem State.setReg_frame (s : State) (x : Nibble) (b : Byte) :
    ChangesOnly (fun p => p = .reg x) s (s.setReg x b) := by
  intro p hp; cases p <;> simp_all [Part.Same, State.reg_setReg]

theorem State.setFlagged_frame (s : State) (x : Nibble) (r : Byte) (f : Bool) :
    ChangesOnly (fun p => p = .reg x ∨ p = .reg vf) s (s.setFlagged x r f) := by
  intro p hp; cases p <;> simp_all [Part.Same, State.reg_setFlagged]

theorem State.raise_frame (s : State) (c : Fault) (n : Nat) :
    ChangesOnly (fun p => p = .fault ∨ p = .slots) s (s.raise c n) := by
  intro p hp; cases p <;> simp_all [Part.Same]

theorem State.enterFault_frame (s : State) (r : FaultRecord) :
    ChangesOnly (fun p => p = .fault ∨ p = .slots) s (s.enterFault r) := by
  intro p hp; cases p <;> simp_all [Part.Same]

theorem State.storeRegs_frame (s : State) (n : Nat) :
    ChangesOnly (fun p => ∃ a, p = .byte a ∧ s.i.toNat ≤ a ∧ a < s.i.toNat + n) s (s.storeRegs n) := by
  intro p hp
  cases p with
  | byte a =>
    have : ¬ (s.i.toNat ≤ a ∧ a < s.i.toNat + n) := fun h => hp ⟨a, rfl, h⟩
    simp only [Part.Same, State.memRead_storeRegs, if_neg this]
  | _ => simp [Part.Same]

theorem State.memWriteList_frame (s : State) (a : Nat) (l : List Byte) :
    ChangesOnly (fun p => ∃ a', p = .byte a' ∧ a ≤ a' ∧ a' < a + l.length) s (s.memWriteList a l) := by
  intro p hp
  cases p with
  | byte a' =>
    have : ¬ (a ≤ a' ∧ a' < a + l.length) := fun h => hp ⟨a', rfl, h⟩
    simp only [Part.Same, State.memRead_memWriteList, if_neg this]
  | _ => simp [Part.Same]

theorem State.loadRegs_frame (s : State) {n : Nat} (hn : n ≤ 16) :
    ChangesOnly (fun p => ∃ x, p = .reg x ∧ x.toNat < n) s (s.loadRegs n) := by
  intro p hp
  cases p with
  | reg x =>
    have : ¬ x.toNat < n := fun h => hp ⟨x, rfl, h⟩
    simp only [Part.Same, State.reg_loadRegs s hn, if_neg this]
  | _ => simp [Part.Same]

end Sys2Proof.Machine
end

