-- ==== Sys2Proof/Tests/Slice0.lean ====
section
/-! SUPPORT. The model's own tests: words written out from the encodings of 30_encoding.md, single steps from
95_test_vectors.md (each docstring names the vector), and for each obligation with hypotheses a concrete state and
operands that meet them. -/

namespace Sys2Proof.Tests

open Sys2Proof Sys2Proof.Machine

/-! ## Well-formedness (30_encoding.md R67): a word of another row is no unknown word -/

theorem test_unknown_of_cls_refused : Instr.wellFormed (.unknown 0x00E0) = false := by decide
theorem test_unknown_of_ret_refused : Instr.wellFormed (.unknown 0x00EE) = false := by decide
theorem test_unknown_of_family1_refused : Instr.wellFormed (.unknown 0x1000) = false := by decide
theorem test_unknown_of_family8_refused : Instr.wellFormed (.unknown 0x8AB7) = false := by decide
theorem test_unknown_of_familyE_refused : Instr.wellFormed (.unknown 0xE0A1) = false := by decide
theorem test_unknown_of_familyF_refused : Instr.wellFormed (.unknown 0xF065) = false := by decide
theorem test_unknown_wellFormed :
    (List.map (fun w => Instr.wellFormed (.unknown w))
      [0x0000, 0x00FE, 0x0FFF, 0x8AB8, 0x8ABF, 0xE19D, 0xE1FF, 0xF000, 0xF075, 0xFFFF]).all id = true := by decide
theorem test_operands_wellFormed : Instr.wellFormed (.drw 0xF 0xF 0xF) = true := by decide

/-! ## Decoding: one word per constructor, its 16 bits written out from the pattern of R66 (2.1 and 2.8) -/

/-- 0123 -/
theorem test_decode_unknown : decodeTableWord 16 0b0000000100100011 = some (.unknown 0x0123) := by decide
/-- 00E0 -/
theorem test_decode_cls : decodeTableWord 16 0b0000000011100000 = some .cls := by decide
/-- 00EE -/
theorem test_decode_ret : decodeTableWord 16 0b0000000011101110 = some .ret := by decide
/-- 1234 -/
theorem test_decode_jmp : decodeTableWord 16 0b0001001000110100 = some (.jmp 0x234) := by decide
/-- 2ABC -/
theorem test_decode_call : decodeTableWord 16 0b0010101010111100 = some (.call 0xABC) := by decide
/-- 3A05 -/
theorem test_decode_seImm : decodeTableWord 16 0b0011101000000101 = some (.seImm 0xA 0x05) := by decide
/-- 4A05 -/
theorem test_decode_sneImm : decodeTableWord 16 0b0100101000000101 = some (.sneImm 0xA 0x05) := by decide
/-- 5AB7 -/
theorem test_decode_seReg : decodeTableWord 16 0b0101101010110111 = some (.seReg 0xA 0xB 0x7) := by decide
/-- 6A2F -/
theorem test_decode_ldImm : decodeTableWord 16 0b0110101000101111 = some (.ldImm 0xA 0x2F) := by decide
/-- 7A2F -/
theorem test_decode_addImm : decodeTableWord 16 0b0111101000101111 = some (.addImm 0xA 0x2F) := by decide
/-- 8AB0 -/
theorem test_decode_ldReg : decodeTableWord 16 0b1000101010110000 = some (.ldReg 0xA 0xB) := by decide
/-- 8AB1 -/
theorem test_decode_orReg : decodeTableWord 16 0b1000101010110001 = some (.orReg 0xA 0xB) := by decide
/-- 8AB2 -/
theorem test_decode_andReg : decodeTableWord 16 0b1000101010110010 = some (.andReg 0xA 0xB) := by decide
/-- 8AB3 -/
theorem test_decode_xorReg : decodeTableWord 16 0b1000101010110011 = some (.xorReg 0xA 0xB) := by decide
/-- 8AB4 -/
theorem test_decode_addReg : decodeTableWord 16 0b1000101010110100 = some (.addReg 0xA 0xB) := by decide
/-- 8AB5 -/
theorem test_decode_subReg : decodeTableWord 16 0b1000101010110101 = some (.subReg 0xA 0xB) := by decide
/-- 8AB6 -/
theorem test_decode_shr : decodeTableWord 16 0b1000101010110110 = some (.shr 0xA 0xB) := by decide
/-- 8AB7 -/
theorem test_decode_subn : decodeTableWord 16 0b1000101010110111 = some (.subn 0xA 0xB) := by decide
/-- 8ABE -/
theorem test_decode_shl : decodeTableWord 16 0b1000101010111110 = some (.shl 0xA 0xB) := by decide
/-- 9AB1 -/
theorem test_decode_sneReg : decodeTableWord 16 0b1001101010110001 = some (.sneReg 0xA 0xB 0x1) := by decide
/-- A123 -/
theorem test_decode_ldI : decodeTableWord 16 0b1010000100100011 = some (.ldI 0x123) := by decide
/-- B123 -/
theorem test_decode_jmpV0 : decodeTableWord 16 0b1011000100100011 = some (.jmpV0 0x123) := by decide
/-- C1FF -/
theorem test_decode_rnd : decodeTableWord 16 0b1100000111111111 = some (.rnd 0x1 0xFF) := by decide
/-- D125 -/
theorem test_decode_drw : decodeTableWord 16 0b1101000100100101 = some (.drw 0x1 0x2 0x5) := by decide
/-- E19E -/
theorem test_decode_skp : decodeTableWord 16 0b1110000110011110 = some (.skp 0x1) := by decide
/-- EFA1 -/
theorem test_decode_sknp : decodeTableWord 16 0b1110111110100001 = some (.sknp 0xF) := by decide
/-- F107 -/
theorem test_decode_ldVxDT : decodeTableWord 16 0b1111000100000111 = some (.ldVxDT 0x1) := by decide
/-- F10A -/
theorem test_decode_ldVxK : decodeTableWord 16 0b1111000100001010 = some (.ldVxK 0x1) := by decide
/-- F115 -/
theorem test_decode_ldDTVx : decodeTableWord 16 0b1111000100010101 = some (.ldDTVx 0x1) := by decide
/-- F118 -/
theorem test_decode_ldSTVx : decodeTableWord 16 0b1111000100011000 = some (.ldSTVx 0x1) := by decide
/-- F11E -/
theorem test_decode_addI : decodeTableWord 16 0b1111000100011110 = some (.addI 0x1) := by decide
/-- F129 -/
theorem test_decode_ldF : decodeTableWord 16 0b1111000100101001 = some (.ldF 0x1) := by decide
/-- F133 -/
theorem test_decode_ldB : decodeTableWord 16 0b1111000100110011 = some (.ldB 0x1) := by decide
/-- F155 -/
theorem test_decode_store : decodeTableWord 16 0b1111000101010101 = some (.store 0x1) := by decide
/-- F165 -/
theorem test_decode_load : decodeTableWord 16 0b1111000101100101 = some (.load 0x1) := by decide

/-- Too few bytes are refused by name (R60). -/
theorem test_decode_truncated : decodeBytes [0x12] = .error .truncated := by rfl
/-- The byte at the lower address is the high one (R43). -/
theorem test_decode_bytes : decodeBytes [0xA1, 0x23, 0x45] = .ok (.ldI 0x123, [0x45]) := by rfl

/-! ## Single steps -/

/-- The state an outcome goes on with. -/
def after : Host.Outcome State Fault Refusal → State
  | .next t => t
  | _ => State.reset

/-- Whether an outcome goes on. -/
def goesOn : Host.Outcome State Fault Refusal → Bool
  | .next _ => true
  | _ => false

theorem eq_next_after {o : Host.Outcome State Fault Refusal} (h : goesOn o = true) : o = .next (after o) := by
  cases o with
  | next t => rfl
  | fault f => exact absurd h (by simp [goesOn])
  | refused r => exact absurd h (by simp [goesOn])

/-- A machine after reset inside a tick, so that the next step opens none. -/
def base : State := { State.reset with slotsLeft := 2 }

/-- Some registers set. -/
def withRegs (s : State) (l : List (Nibble × Byte)) : State := l.foldl (fun s p => s.setReg p.1 p.2) s

/-- One step that runs the word `w`, placed where the step fetches. -/
def run (s : State) (w : Nat) : State := after (step (s.withFetchWord 16 w))

/-- A faulted machine. -/
def faulted : State :=
  { base with
    dt := 7
    audio := true
    slotsLeft := 0
    fault := some { cause := .stackUnderflow, pc := 0x200, ir := 0x00EE, info := 0 } }

/-- A machine about to execute an instruction with the registers `V[0]`, `V[1]` and `I` given. -/
def ready (v0 v1 : Byte) (i : Word) : State := { withRegs base [(0, v0), (1, v1)] with i := i }

/-- A machine whose call stack of 16 entries holds `n` valid ones. -/
def nested (n : Nat) : State :=
  { base with stack := { live := List.replicate n 0x202, dead := List.replicate (16 - n) 0 } }

/-- A fault record as the vectors write it, the cause by its code, with `info`. -/
def faultOf (s : State) : Option (Nat × Nat × Nat × Nat) :=
  s.fault.map (fun r => (r.cause.code, r.pc.toNat, r.ir.toNat, r.info))

/-- F1 -/
theorem test_unknown :
    let t := run base 0x0123
    t.pc = 0x202 ∧ t.ir = 0x0123 ∧ t.fault = none := by decide
/-- F2 -/
theorem test_jmp : (run base 0x1234).pc = 0x0234 := by decide
/-- F5, first step: the sum is not masked -/
theorem test_jmpV0 : (run (withRegs base [(0, 0xFF)]) 0xBFFF).pc = 0x10FE := by decide
/-- F6, first step -/
theorem test_call :
    let t := run base 0x2300
    t.pc = 0x300 ∧ t.stack.sp = 1 ∧ t.stack.entries.head? = some 0x202 := by decide
/-- F6, second step -/
theorem test_ret :
    let t := run (nested 1) 0x00EE
    t.pc = 0x202 ∧ t.stack.sp = 0 := by decide
/-- F9 -/
theorem test_ret_empty :
    let t := run base 0x00EE
    faultOf t = some (1, 0x200, 0x00EE, 0) ∧ t.pc = 0x200 ∧ t.ir = 0 := by decide
/-- F8, the last step -/
theorem test_call_full :
    let t := run { nested 16 with pc := 0x220, ir := 0x2220 } 0x2222
    faultOf t = some (2, 0x220, 0x2222, 0) ∧ t.pc = 0x220 ∧ t.ir = 0x2220 ∧ t.stack.sp = 16 := by decide
/-- F10, F11 -/
theorem test_seImm :
    (run (withRegs base [(0xA, 5)]) 0x3A05).pc = 0x204 ∧ (run (withRegs base [(0xA, 6)]) 0x3A05).pc = 0x202 := by decide
/-- F12, F13 -/
theorem test_sneImm :
    (run (withRegs base [(0xA, 5)]) 0x4A05).pc = 0x202 ∧ (run (withRegs base [(0xA, 6)]) 0x4A05).pc = 0x204 := by decide
/-- F14, F15 -/
theorem test_seReg :
    (run (withRegs base [(1, 7), (2, 7)]) 0x5120).pc = 0x204 ∧ (run (withRegs base [(1, 7), (2, 8)]) 0x5120).pc
      = 0x202 := by decide
/-- F17, F18 -/
theorem test_sneReg :
    (run (withRegs base [(1, 7), (2, 8)]) 0x9120).pc = 0x204 ∧ (run (withRegs base [(1, 7), (2, 7)]) 0x9120).pc
      = 0x202 := by decide
/-- F22 -/
theorem test_fetch_odd : (run { base with pc := 0x201 } 0x1200).pc = 0x200 := by decide
/-- F20, first step -/
theorem test_skip_past_end : (run { base with pc := 0xFFE } 0x3000).pc = 0x1002 := by decide
/-- F20, second step -/
theorem test_fetch_out_of_range :
    faultOf (after (step { base with pc := 0x1002, ir := 0x3000 })) = some (3, 0x1002, 0x3000, 0x1002) := by decide
/-- A1 -/
theorem test_ldImm : (run base 0x63FF).reg 3 = 0xFF := by decide
/-- A2 -/
theorem test_addImm :
    let t := run (withRegs base [(3, 0xFE), (0xF, 0x55)]) 0x7305
    t.reg 3 = 0x03 ∧ t.reg 0xF = 0x55 := by decide
/-- A4 -/
theorem test_ldReg : (run (withRegs base [(2, 0x5A)]) 0x8120).reg 1 = 0x5A := by decide
/-- A5 -/
theorem test_orReg :
    let t := run (withRegs base [(1, 0xF0), (2, 0x0F), (0xF, 1)]) 0x8121
    t.reg 1 = 0xFF ∧ t.reg 0xF = 1 := by decide
/-- A6 -/
theorem test_andReg : (run (withRegs base [(1, 0xF3), (2, 0x3F)]) 0x8122).reg 1 = 0x33 := by decide
/-- A7 -/
theorem test_xorReg : (run (withRegs base [(1, 0xFF), (2, 0x0F)]) 0x8123).reg 1 = 0xF0 := by decide
/-- S3 -/
theorem test_addReg :
    let t := run (withRegs base [(1, 0xFF), (2, 0x01)]) 0x8124
    t.reg 1 = 0 ∧ t.reg 0xF = 1 := by decide
/-- A12: the carry wins over the sum -/
theorem test_addReg_vf : (run (withRegs base [(0xF, 0x10), (1, 0x20)]) 0x8F14).reg 0xF = 0 := by decide
/-- S6 -/
theorem test_subReg :
    let t := run (withRegs base [(1, 0x03), (2, 0x05)]) 0x8125
    t.reg 1 = 0xFE ∧ t.reg 0xF = 0 := by decide
/-- A15 -/
theorem test_subReg_equal :
    let t := run (withRegs base [(1, 7), (2, 7)]) 0x8125
    t.reg 1 = 0 ∧ t.reg 0xF = 1 := by decide
/-- A18: the old V[1] is ignored -/
theorem test_shr :
    let t := run (withRegs base [(1, 0xAA), (2, 0x05)]) 0x8126
    t.reg 1 = 2 ∧ t.reg 0xF = 1 ∧ t.reg 2 = 5 := by decide
/-- A23 -/
theorem test_subn :
    let t := run (withRegs base [(1, 5), (2, 3)]) 0x8127
    t.reg 1 = 0xFE ∧ t.reg 0xF = 0 := by decide
/-- A25 -/
theorem test_shl :
    let t := run (withRegs base [(2, 0x81)]) 0x812E
    t.reg 1 = 2 ∧ t.reg 0xF = 1 := by decide
/-- A28: the bit shifted out wins -/
theorem test_shl_vf : (run (withRegs base [(0xF, 0x80)]) 0x8FFE).reg 0xF = 1 := by decide
/-- A29, for the draw 0xA7 -/
theorem test_rnd : ((base.rndWith 3 0x0F 0xA7).reg 3 = 7) := by decide
/-- A30: whatever the draw -/
theorem test_rnd_mask_zero : ∀ r : Byte, (base.rndWith 3 0 r).reg 3 = 0 := by decide
/-- M1 -/
theorem test_ldI : (run base 0xA2F0).i = 0x2F0 := by decide
/-- M3: no mask and no flag -/
theorem test_addI :
    let t := run (withRegs { base with i := 0xFFF } [(3, 1)]) 0xF31E
    t.i = 0x1000 ∧ t.reg 0xF = 0 := by decide
/-- M4 -/
theorem test_addI_wraps : (run (withRegs { base with i := 0xFFFF } [(3, 1)]) 0xF31E).i = 0 := by decide
/-- M7: the whole byte is multiplied -/
theorem test_ldF : (run (withRegs base [(0, 0xFF)]) 0xF029).i = 0x4FB := by decide
/-- M8 -/
theorem test_ldB :
    let t := run (withRegs { base with i := 0x300 } [(2, 0x9C)]) 0xF233
    t.memRead 0x300 = 1 ∧ t.memRead 0x301 = 5 ∧ t.memRead 0x302 = 6 ∧ t.i = 0x300 := by decide
/-- M13 -/
theorem test_ldB_out_of_range :
    let t := run (withRegs { base with i := 0xFFE } [(2, 9)]) 0xF233
    faultOf t = some (4, 0x200, 0xF233, 0x1000) ∧ t.memRead 0xFFE = 0 := by decide
/-- M14 -/
theorem test_store :
    let t := run (withRegs { base with i := 0x400 } [(0, 0x11), (1, 0x22), (2, 0x33)]) 0xF255
    t.memRead 0x400 = 0x11 ∧ t.memRead 0x402 = 0x33 ∧ t.memRead 0x403 = 0 ∧ t.i = 0x403 := by decide
/-- M17 -/
theorem test_store_out_of_range :
    let t := run { base with i := 0xFF1 } 0xFF55
    faultOf t = some (4, 0x200, 0xFF55, 0x1000) ∧ t.i = 0xFF1 := by decide
/-- M20: the default font's digit 0 -/
theorem test_load :
    let t := run base 0xF465
    t.reg 0 = 0xF0 ∧ t.reg 1 = 0x90 ∧ t.reg 4 = 0xF0 ∧ t.i = 5 := by decide
/-- M19 -/
theorem test_load_out_of_range :
    faultOf (run { base with i := 0x1000 } 0xF065) = some (4, 0x200, 0xF065, 0x1000) := by decide
/-- D12 -/
theorem test_cls :
    let t := run { base with disp := Display.toggle Display.clear 31 63 } 0x00E0
    Display.pixel t.disp 31 63 = false := by decide
/-- D2 -/
theorem test_drw_clips :
    let t := run ((withRegs { base with i := 0x300 } [(0, 60), (1, 0)]).memWrite 0x300 0xFF) 0xD011
    Display.pixel t.disp 0 60 = true ∧ Display.pixel t.disp 0 63 = true ∧ Display.pixel t.disp 0 59 = false ∧
      Display.pixel t.disp 0 0 = false ∧ Display.pixel t.disp 1 0 = false ∧ t.reg 0xF = 0 := by decide
/-- D5 -/
theorem test_drw_collides :
    let t := run ({ base with i := 0x300, disp := Display.toggle Display.clear 0 0 }.memWrite 0x300 0xC0) 0xD011
    Display.pixel t.disp 0 0 = false ∧ Display.pixel t.disp 0 1 = true ∧ t.reg 0xF = 1 := by decide
/-- K1, K2 -/
theorem test_skp :
    (run { withRegs base [(1, 4)] with keys := 0x0010 } 0xE19E).pc = 0x204 ∧ (run (withRegs base [(1, 4)])
      0xE19E).pc = 0x202 := by decide
/-- K3 -/
theorem test_sknp : (run (withRegs base [(1, 4)]) 0xE1A1).pc = 0x204 := by decide
/-- K4 -/
theorem test_skp_out_of_range :
    faultOf (run (withRegs base [(1, 0x10)]) 0xE19E) = some (5, 0x200, 0xE19E, 0x10) := by decide
/-- K4 -/
theorem test_sknp_out_of_range :
    faultOf (run (withRegs base [(1, 0x10)]) 0xE1A1) = some (5, 0x200, 0xE1A1, 0x10) := by decide
/-- K5, for the sample (0, -) -/
theorem test_ldVxK_none :
    let t := (base.fetched 0xF50A).keyWaitWith 5 { valid := false, key := 0xB }
    t.pc = 0x200 ∧ t.reg 5 = 0 ∧ t.ir = 0xF50A := by decide
/-- K6, for the sample (1, 0xB) -/
theorem test_ldVxK_key :
    let t := (base.fetched 0xF50A).keyWaitWith 5 { valid := true, key := 0xB }
    t.pc = 0x202 ∧ t.reg 5 = 0x0B := by decide
/-- K7 -/
theorem test_ldVxDT : (run { base with dt := 0x2A } 0xF307).reg 3 = 0x2A := by decide
/-- K8 -/
theorem test_ldDTVx : (run (withRegs base [(3, 60)]) 0xF315).dt = 60 := by decide
/-- K9 -/
theorem test_ldSTVx : (run (withRegs base [(3, 5)]) 0xF318).st = 5 := by decide
/-- T1 and T4 -/
theorem test_timers :
    let t := { base with dt := 255, st := 2 }.openTick 0
    t.dt = 254 ∧ t.st = 1 ∧ t.audio = true := by decide
/-- T3 -/
theorem test_timers_at_zero :
    let t := base.openTick 0
    t.dt = 0 ∧ t.st = 0 ∧ t.audio = false := by decide
/-- T2 -/
theorem test_trigger_ends : ({ base with st := 1 }.openTick 0).audio = false := by decide
/-- T6 -/
theorem test_snapshot :
    let t := base.openTick 0x0081
    t.keyHeld 0 = true ∧ t.keyHeld 7 = true ∧ t.keyHeld 1 = false := by decide
/-- T5 -/
theorem test_faulted_tick :
    let t := after (tick 0xFFFF faulted)
    t.dt = 7 ∧ t.keys = 0 ∧ t.audio = false := by decide
/-- X1 -/
theorem test_reset_event :
    let t := (((base.memWrite 0 0).memWrite 0x100 0x5A).memWrite 0x300 0x77).resetEvent
    t.memRead 0 = 0xF0 ∧ t.memRead 0x100 = 0x5A ∧ t.memRead 0x300 = 0x77 ∧ t.pc = 0x200 := by decide
/-- X2 -/
theorem test_load_rom :
    let t := base.loadRom [0x12, 0x00]
    t.memRead 0x200 = 0x12 ∧ t.memRead 0x201 = 0 ∧ t.pc = 0x200 := by decide
/-- Z3, the default font -/
theorem test_disassemble :
    (disassemble Config.mnemonics State.reset 0x000 0x004).map (List.map Line.text) = some ["$0000: ???",
      "$0002: SNE Vx,Vy", "$0004: ???"] := by decide
/-- Z4, Z6 -/
theorem test_disassemble_refused :
    disassemble Config.mnemonics State.reset 0x300 0x2FE = some [] ∧ disassemble Config.mnemonics State.reset
      0xFF0 0xFFF = none := by decide

/-! ## Witnesses: states and operands that meet the hypotheses of the obligations, at the ends of their ranges -/

/-- DecodeEncodeRoundTrip. -/
theorem witness_wellFormed :
    Instr.wellFormed (.drw 0xF 0xF 0xF) = true ∧ Instr.wellFormed (.unknown 0xFFFF) = true := by decide

/-- DecoderAgreesWithTable, second part: a word and a row that accepts it. -/
theorem witness_row_accepts : (⟨18, 0x800E, 0xF00F⟩ : TableRow) ∈ opcodeRows
    ∧ (⟨18, 0x800E, 0xF00F⟩ : TableRow).accepts 0x8ABE = true := by decide

/-- UnknownWordOnlyAdvances: after reset the next word is 0, which is unknown. -/
theorem witness_unknown_fetched : State.reset.fault = none ∧ State.reset.fetchWord = some 0x0000
    ∧ decode 0x0000 = .unknown 0x0000 := by decide

/-- RetPopsOrUnderflows, both clauses: one entry, and none. -/
theorem witness_ret : (nested 1).stack.sp ≠ 0 ∧ (nested 0).stack.sp = 0 := by decide

/-- CallPushesOrOverflows, both clauses: one entry free, and none. -/
theorem witness_call : (nested 15).stack.sp ≠ (nested 15).stack.depth
    ∧ (nested 16).stack.sp = (nested 16).stack.depth := by decide

/-- NestedCallsReturn: 16 calls fill the stack exactly. -/
theorem witness_nested_calls : List.replicate 16 (0x300 : Addr12) ≠ []
    ∧ (nested 0).stack.sp + (List.replicate 16 (0x300 : Addr12)).length ≤ (nested 0).stack.depth := by decide

/-- AddSetsCarry, SubtractionsSetNoBorrow, ShiftsTakeVy, SameRegisterOperands: a destination that is not VF. -/
theorem witness_destination : (0xE : Nibble) ≠ vf ∧ (0 : Nibble) ≠ vf := by decide

/-- BcdStoresDigits, both clauses, where they meet. -/
theorem witness_bcd : (ready 0 0 0x0FFD).effAddr 2 ≤ 0x0FFF ∧ 0x0FFF < (ready 0 0 0x0FFE).effAddr 2 := by decide

/-- StoreCopiesRegisters and LoadCopiesMemory, both clauses, where they meet. -/
theorem witness_store_load : (ready 0 0 0x0FF0).effAddr (0xF : Nibble).toNat ≤ 0x0FFF
    ∧ 0x0FFF < (ready 0 0 0x0FF1).effAddr (0xF : Nibble).toNat
    ∧ (ready 0 0 0x0FFF).effAddr (0x0 : Nibble).toNat ≤ 0x0FFF
    ∧ 0x0FFF < (ready 0 0 0xFFFF).effAddr (0xF : Nibble).toNat := by decide

/-- StoreThenLoadRestores. -/
theorem witness_store_then_load : (ready 1 2 0x0FF0).effAddr (0xF : Nibble).toNat ≤ 0x0FFF := by decide

/-- StoredBytesAreFetched: vector M21, where FX55 writes the word after it. -/
theorem witness_stored_fetched :
    let s := { ready 0x12 0x00 0x202 with pc := 0x202 }
    s.effAddr (0x1 : Nibble).toNat ≤ 0x0FFF ∧ 0 < (0x1 : Nibble).toNat ∧ s.pc.toNat = s.effAddr 0 := by decide

/-- MemoryIsItsReads: a memory with a byte of the font overwritten and a byte of the program region. -/
theorem witness_memory :
    Memory.wf (Memory.unlisted Config.defaultFont) [(0x04F, 1), (0xFFF, 2)]
    ∧ ∀ a, Memory.read (Memory.unlisted Config.defaultFont) [(0x04F, 1), (0xFFF, 2)] a
      = Memory.read (Memory.unlisted Config.defaultFont) [(0x04F, 1), (0xFFF, 2)] a :=
  ⟨by decide, fun _ => rfl⟩

/-- DrawTogglesTheSprite, both clauses: no rows anywhere, one row at the top byte, and one byte past it. -/
theorem witness_draw : (0 : Nibble) = 0 ∧ (ready 0 0 0x0FFF).effAddr ((1 : Nibble).toNat - 1) ≤ 0x0FFF
    ∧ ((1 : Nibble) ≠ 0 ∧ 0x0FFF < (ready 0 0 0x1000).effAddr ((1 : Nibble).toNat - 1)) := by decide

/-- DrawTogglesTheSprite: the pixel at the corner is one a clipped sprite sets (vector D11). -/
theorem witness_sprite_sets :
    SpriteSets ((ready 0xFF 0xFF 0x0300).memWrite 0x0300 0xFF) 0 1 1 31 63 := by
  unfold SpriteSets; decide

/-- DrawTwiceRestores: position registers that are not VF, a sprite inside memory, a dark display. -/
theorem witness_draw_twice : (0 : Nibble) ≠ vf ∧ (1 : Nibble) ≠ vf
    ∧ ((1 : Nibble) = 0 ∨ (ready 8 4 0x0FFF).effAddr ((1 : Nibble).toNat - 1) ≤ 0x0FFF)
    ∧ ∀ py px, Display.pixel (ready 8 4 0x0FFF).disp py px = false :=
  ⟨by decide, by decide, by decide, Display.pixel_clear⟩

/-- KeySkipsReadTheSnapshot, both clauses, where they meet. -/
theorem witness_key_skips : ((ready 15 0 0).reg 0).toNat ≤ 15 ∧ 15 < ((ready 16 0 0).reg 0).toNat := by decide

/-- KeyWaitHoldsTheProgram. -/
theorem witness_key_wait :
    let s := base.withFetchWord 16 0xF50A
    s.fault = none ∧ s.fetchWord = some 0xF50A ∧ decode 0xF50A = .ldVxK 5 := by decide

/-- StepRunsTheDecodedInstruction at a tick boundary, with an instruction that does not fault. -/
theorem witness_step_runs :
    let s := State.reset.withFetchWord 16 0x1234
    s.fault = none ∧ s.slotsLeft = 0 ∧ s.ipt ≠ 0 ∧ s.pc.toNat ≤ 0x0FFE
    ∧ decodeBytes [s.memRead s.pc.toNat, s.memRead (s.pc.toNat + 1)] = .ok (.jmp 0x234, [])
    ∧ ∃ t, exec (.jmp 0x234) (s.atSlot.fetched (wordOfBytes (s.memRead s.pc.toNat) (s.memRead (s.pc.toNat + 1))))
        = .next t ∧ t.fault = none :=
  ⟨by decide, by decide, by decide, by decide, by rfl, _, rfl, by decide⟩

/-- StepRunsTheDecodedInstruction inside a tick, at the last address a fetch reads, with an instruction that
faults. -/
theorem witness_step_runs_fault :
    let s := { base with pc := 0x0FFE }.withFetchWord 16 0x00EE
    s.fault = none ∧ s.slotsLeft ≠ 0 ∧ s.pc.toNat ≤ 0x0FFE
    ∧ decodeBytes [s.memRead s.pc.toNat, s.memRead (s.pc.toNat + 1)] = .ok (.ret, [])
    ∧ ∃ t, exec .ret (s.atSlot.fetched (wordOfBytes (s.memRead s.pc.toNat) (s.memRead (s.pc.toNat + 1))))
        = .next t ∧ ∃ r, t.fault = some r :=
  ⟨by decide, by decide, by decide, by rfl, _, rfl, _, rfl⟩

/-- FetchIsBigEndian, both clauses, where they meet. -/
theorem witness_fetch : ({ base with pc := 0x0FFE } : State).pc.toNat ≤ 0x0FFE
    ∧ 0x0FFE < ({ base with pc := 0x0FFF } : State).pc.toNat := by decide

/-- FetchBeyondMemoryFaults, inside a tick and at a tick boundary. -/
theorem witness_fetch_beyond :
    (let s := { base with pc := 0x0FFF }; s.fault = none ∧ s.slotsLeft ≠ 0 ∧ 0x0FFE < s.pc.toNat)
    ∧ (let s := { State.reset with pc := 0xFFFF }; s.fault = none ∧ s.ipt ≠ 0 ∧ 0x0FFE < s.pc.toNat) := by
  decide

/-- FaultsArePrecise: an instruction's fault. -/
theorem witness_fault_step : (base.withFetchWord 16 0x00EE).fault = none
    ∧ ∃ t r, step (base.withFetchWord 16 0x00EE) = .next t ∧ t.fault = some r ∧ r.cause ≠ .fetchOutOfRange :=
  ⟨by decide, _, _, eq_next_after (by decide), rfl, by decide⟩

/-- FaultsArePrecise: a fetch's fault. -/
theorem witness_fault_fetch : ({ base with pc := 0x0FFF } : State).fault = none
    ∧ ∃ t r, step { base with pc := 0x0FFF } = .next t ∧ t.fault = some r ∧ r.cause = .fetchOutOfRange :=
  ⟨by decide, _, _, eq_next_after (by decide), rfl, by decide⟩

/-- RaisingInstructionsWriteNothing. -/
theorem witness_raising : (nested 0).fault = none ∧ ∃ t, exec .ret (nested 0) = .next t ∧ t.fault ≠ none :=
  ⟨by decide, _, eq_next_after (by decide), by decide⟩

/-- FaultedMachineIgnoresTicks. -/
theorem witness_faulted : faulted.fault ≠ none := by decide

/-- OnlyResetsClearTheFault: a request that clears the record, and one that keeps it. -/
theorem witness_host_event : ∃ r, faulted.fault = some r
    ∧ (∃ t, hostEvent .reset faulted = .next t) ∧ ∃ t, hostEvent (.tick 0xFFFF) faulted = .next t :=
  ⟨_, rfl, ⟨_, rfl⟩, _, eq_next_after (by decide)⟩

/-- SafeEndMeansSafeRun. -/
theorem witness_safe_end : ∃ t : State, core.run 2 State.reset = .next t ∧ t.fault = none :=
  ⟨_, eq_next_after (o := core.run 2 State.reset) (by decide), by decide⟩

/-- TickIsItsSlots, with the default budget and with none. -/
theorem witness_tick : (State.reset.fault = none ∧ State.reset.slotsLeft = 0 ∧ State.reset.ipt = 6)
    ∧ (let s := { State.reset with ipt := 0 }; s.fault = none ∧ s.slotsLeft = 0) := by decide

/-- TriggerFollowsSoundTimer, both clauses, the first on both sides of its condition; SnapshotHoldsForTheTick. -/
theorem witness_trigger :
    (let s := { State.reset with st := 1 }; s.fault = none ∧ ¬ 1 < s.st.toNat)
    ∧ (let s := { State.reset with st := 2 }; s.fault = none ∧ 1 < s.st.toNat) ∧ faulted.fault ≠ none := by decide

/-- OnlyTheListedInstructionsWrite: a jump, which does not write V[F]. -/
theorem witness_listed : (∃ t, exec (.jmp 0x300) base = .next t) ∧ tableIndex (.jmp 0x300) ∉ writersOf (.reg vf) :=
  ⟨⟨_, rfl⟩, by decide⟩

/-- FlagWritersOfVf, both clauses: an addition changes VF to the carry, and does not fault. -/
theorem witness_flag : ∃ t, exec (.addReg 0 1) (ready 0xFF 0x01 0) = .next t ∧ t.reg vf ≠ (ready 0xFF 0x01 0).reg vf
    ∧ tableIndex (.addReg 0 1) ∈ [14, 15, 16, 17, 18, 23] ∧ t.fault = none :=
  ⟨_, rfl, by decide, by decide, by decide⟩

/-- FlagWritersOfVf: an ordinary destination that is VF. -/
theorem witness_flag_destination : ∃ t, exec (.ldImm 0xF 0x55) base = .next t ∧ t.reg vf ≠ base.reg vf :=
  ⟨_, rfl, by decide⟩

/-- ParametersStay and StepKeepsTheInvariant. -/
theorem witness_step_inv : State.reset.Inv ∧ ∃ t, step State.reset = .next t :=
  ⟨by decide, _, eq_next_after (by decide)⟩

/-- ParametersStay and HostEventsKeepTheInvariant, from a faulted state. -/
theorem witness_event_inv : faulted.Inv ∧ ∃ t, hostEvent (.loadRom [0x12, 0x00]) faulted = .next t :=
  ⟨by decide, _, rfl⟩

/-- PowerOnValues and ResetValues: the last byte of the font and the first above it. -/
theorem witness_font : 79 < 80 ∧ 80 ≤ 80 := by decide

/-- LoadRomCopiesAndTruncates: the last byte of a ROM that just fits. -/
theorem witness_rom : 3583 < (List.replicate 3584 (1 : Byte)).length ∧ 3583 < 3584 := by
  rw [List.length_replicate]; omega

/-- DisassemblyWalksTheRange, both clauses, where they meet. -/
theorem witness_disassemble : 0x0FFE < (0x0FFF : Word).toNat ∧ (0x0FFE : Word).toNat ≤ 0x0FFE := by decide

/-- DisassemblyRoundTrip: the default strings, and a request that is accepted. -/
theorem witness_disassembly : (∀ e f : Fin 35, Config.mnemonics[e] = Config.mnemonics[f] → e = f)
    ∧ ∃ ls, disassemble Config.mnemonics State.reset 0x000 0x004 = some ls ∧ ls ≠ [] :=
  ⟨by decide, _, rfl, by decide⟩

/-- ZeroedMemoryRunsToItsEnd: the machine after reset (vector F21). -/
theorem witness_zeroed : State.reset.fault = none ∧ State.reset.ipt ≠ 0 ∧ State.reset.pc.toNat < 0x1000
    ∧ State.reset.pc.toNat % 2 = 0
    ∧ ∀ a, State.reset.pc.toNat ≤ a → a < 0x1000 → State.reset.memRead a = 0 :=
  ⟨by decide, by decide, by decide, by decide, fun a h _ =>
    Memory.unlisted_zero _ (Nat.le_trans (by decide : 80 ≤ State.reset.pc.toNat) h)⟩

/-- WrittenTimersRunDown: one tick after the write, of a value for which the trigger is driven and of one for which
it is not. -/
theorem witness_timer_ticks : ([0] : List (BitVec 16)) ≠ [] ∧ ([0] : List (BitVec 16)).length < ((ready 2 1 0).reg 0).toNat
    ∧ ¬ ([0] : List (BitVec 16)).length < ((ready 2 1 0).reg 1).toNat := by decide

/-- FaultsAreThoseOfTheTable: an unfaulted state that fetches, and one that cannot, where the two meet. -/
theorem witness_fault_table :
    (let s := { base with pc := 0x0FFE }; s.fault = none ∧ ∃ w, s.fetchWord = some w)
    ∧ (let s := { base with pc := 0x0FFF }; s.fault = none ∧ s.fetchWord = none) :=
  ⟨⟨by decide, _, rfl⟩, by decide⟩

end Sys2Proof.Tests
end

/-! PROOFS. The statements of 00_scope.md: a step runs the decoded instruction, an instruction writes only the
pieces it is listed to write, and the parameters stay. `exec_answer` says once what executing an instruction can
answer, and `step_cases` what a step can. -/

namespace Sys2Proof.Machine

/-! ## The engine: a step runs the decoded instruction (45_engine.md R159) -/

/-- The slot a step runs in has a budget where a slot is left, or where a tick that opens has one. -/
theorem State.atSlot_slotsLeft_ne_zero {s : State} (h : s.slotsLeft ≠ 0 ∨ s.ipt ≠ 0) :
    s.atSlot.slotsLeft ≠ 0 := by
  by_cases h0 : s.slotsLeft = 0
  · rw [State.atSlot_of_eq h0, State.openTick_slotsLeft]
    exact h.resolve_left (not_not_intro h0)
  · rwa [State.atSlot_of_ne h0]

/-- The opening of a tick does not move the fetch. -/
@[simp] theorem State.atSlot_fetchWord (s : State) : s.atSlot.fetchWord = s.fetchWord := by
  simp [State.fetchWord]

/-- An unfaulted machine with a slot to run in executes the word it fetches. -/
theorem step_of_fetchWord {s : State} {w : Word} (hf : s.fault = none) (hs : s.atSlot.slotsLeft ≠ 0)
    (hw : s.fetchWord = some w) : step s = s.atSlot.settleOutcome (exec (decode w) (s.atSlot.fetched w)) := by
  simp [step, runSlot, instrStep, hf, hs, hw]

/-- Settles O35: the step is the settled outcome of the fetched word, and settling keeps an unfaulted state and
undoes a faulted one. -/
theorem stepRunsTheDecodedInstruction : Obligations.StepRunsTheDecodedInstruction := by
  intro s t i hf hslot hpc hdec hexec
  obtain rfl : decode (wordOfBytes (s.memRead s.pc.toNat) (s.memRead (s.pc.toNat + 1))) = i := by
    simpa [decodeBytes] using hdec
  have hstep : step s = .next (s.atSlot.settle t) := by
    rw [step_of_fetchWord hf (State.atSlot_slotsLeft_ne_zero hslot) (State.fetchWord_of_le hpc), hexec]
    rfl
  refine ⟨State.atSlot_of_ne, State.atSlot_of_eq, fun ht => ?_, fun r ht => ?_⟩
  · rw [hstep, State.settle_of_none ht]
  · rw [hstep, State.settle_of_some ht]
    rfl

/-! ## Frames of the updates that Laws/Step does not list -/

theorem State.setDelay_frame (s : State) (b : Byte) : ChangesOnly (fun p => p = .delay) s (s.setDelay b) := by
  intro p hp; cases p <;> simp_all [Part.Same]

theorem State.setSound_frame (s : State) (b : Byte) : ChangesOnly (fun p => p = .sound) s (s.setSound b) := by
  intro p hp; cases p <;> simp_all [Part.Same]

theorem State.setDisplay_frame (s : State) (d : Display) :
    ChangesOnly (fun p => p = .display) s (s.setDisplay d) := by
  intro p hp; cases p <;> simp_all [Part.Same]

theorem State.setStack_frame (s : State) (k : CallStack) : ChangesOnly (fun p => p = .stack) s (s.setStack k) := by
  intro p hp; cases p <;> simp_all [Part.Same]

theorem State.drawRnd_frame (s : State) : ChangesOnly (fun p => p = .rndNo) s s.drawRnd := by
  intro p hp; cases p <;> simp_all [Part.Same]

theorem State.drawKeyWait_frame (s : State) : ChangesOnly (fun p => p = .kwNo) s s.drawKeyWait := by
  intro p hp; cases p <;> simp_all [Part.Same]

/-! ## What executing an instruction can do -/

/-- The pieces an instruction may write where it completes: those whose writers list it, without the record of a
fault and the slots of the tick, which only a raised fault writes. -/
def Writes (i : Instr) (p : Part) : Prop := tableIndex i ∈ writersOf p ∧ p ≠ .fault ∧ p ≠ .slots

/-- What executing an instruction can answer (00_scope.md R7, 60_exceptions.md R183): one that R181 lets raise
raises a fault and does nothing else, or the instruction completes and writes only pieces it is a writer of. -/
def ExecAnswer (i : Instr) (s : State) (o : Host.Outcome State Fault Refusal) : Prop :=
  (∃ c n, o = .next (s.raise c n) ∧ tableIndex i ∈ writersOf .fault)
    ∨ ∃ t, o = .next t ∧ ChangesOnly (Writes i) s t

/-! In the next three lemmas the default proof of a side condition looks the instruction's row up in the lists of
`writersOf`. -/

/-- An instruction that completes with a frame inside its listed pieces. -/
theorem ExecAnswer.completes {i : Instr} {P : Part → Prop} {s t : State} (ht : ChangesOnly P s t)
    (hP : ∀ p, P p → Writes i p := by simp [Writes, tableIndex, writersOf, or_imp, forall_and]) :
    ExecAnswer i s (.next t) := .inr ⟨t, rfl, ht.mono hP⟩

/-- An instruction that raises a fault and is listed to. -/
theorem ExecAnswer.raises {i : Instr} {s : State} {c : Fault} {n : Nat}
    (hi : tableIndex i ∈ writersOf .fault := by simp [tableIndex, writersOf]) :
    ExecAnswer i s (.next (s.raise c n)) := .inl ⟨c, n, rfl, hi⟩

/-- An instruction that checks before it writes answers its fault or its effect. -/
theorem ExecAnswer.checked {i : Instr} {P : Part → Prop} {s t : State} {ok : Bool} {c : Fault} {n : Nat}
    (ht : ChangesOnly P s t)
    (hP : ∀ p, P p → Writes i p := by simp [Writes, tableIndex, writersOf, or_imp, forall_and])
    (hi : tableIndex i ∈ writersOf .fault := by simp [tableIndex, writersOf]) :
    ExecAnswer i s (s.checked ok c n t) := by
  rcases s.checked_cases t ok c n with ⟨-, h⟩ | ⟨-, h⟩ <;> rw [h]
  · exact .completes ht hP
  · exact .raises hi

/-- `00EE`: an underflow, or the popped address goes to `PC` (R81). -/
theorem execRet_cases (s : State) :
    execRet s = .next (s.raise .stackUnderflow 0)
      ∨ ∃ a k, k.depth = s.stack.depth ∧ execRet s = .next ((s.setStack k).setPc a) := by
  rcases s.stack.pop_cases with ⟨-, h⟩ | ⟨-, a, k, h, -, hdepth, -⟩
  · exact .inl (by simp [execRet, h])
  · exact .inr ⟨a, k, hdepth, by simp [execRet, h]⟩

/-- `2NNN`: an overflow, or `PC` is pushed and the address goes to `PC` (R83). -/
theorem execCall_cases (nnn : Addr12) (s : State) :
    execCall nnn s = .next (s.raise .stackOverflow 0)
      ∨ ∃ k, k.depth = s.stack.depth ∧ execCall nnn s = .next ((s.setStack k).setPc (addrOf nnn)) := by
  rcases s.stack.push_cases s.pc with ⟨-, h⟩ | ⟨-, k, h, -, hdepth, -⟩
  · exact .inl (by simp [execCall, h])
  · exact .inr ⟨k, hdepth, by simp [execCall, h]⟩

/-- Stack and `PC` written one after the other. -/
theorem State.setStack_setPc_frame (s : State) (k : CallStack) (a : Word) :
    ChangesOnly (fun p => p = .stack ∨ p = .pc) s ((s.setStack k).setPc a) :=
  ((s.setStack_frame k).mono (by simp)).trans (((s.setStack k).setPc_frame a).mono (by simp))

/-- `CXNN` draws a byte and writes its destination (R111). -/
theorem State.rndWith_frame (s : State) (x : Nibble) (nn r : Byte) :
    ChangesOnly (fun p => p = .rndNo ∨ p = .reg x) s (s.rndWith x nn r) :=
  (s.drawRnd_frame.mono (by simp)).trans ((s.drawRnd.setReg_frame x (r &&& nn)).mono (by simp))

/-- `FX0A` draws a sample and writes its destination or `PC` (R145). -/
theorem State.keyWaitWith_frame (s : State) (x : Nibble) (k : Config.KeySample) :
    ChangesOnly (fun p => p = .kwNo ∨ p = .reg x ∨ p = .pc) s (s.keyWaitWith x k) := by
  refine (s.drawKeyWait_frame.mono (by simp)).trans ?_
  unfold State.keyWaitWith
  split
  · exact (s.drawKeyWait.setReg_frame x _).mono (by simp)
  · exact (s.drawKeyWait.setPc_frame _).mono (by simp)

/-- A completed draw writes the display and then VF (R131). -/
theorem State.setDisplay_setReg_frame (s : State) (d : Display) (x : Nibble) (b : Byte) :
    ChangesOnly (fun p => p = .display ∨ p = .reg x) s ((s.setDisplay d).setReg x b) :=
  ((s.setDisplay_frame d).mono (by simp)).trans (((s.setDisplay d).setReg_frame x b).mono (by simp))

/-- A completed `FX33` writes bytes of memory (R123). -/
theorem State.memWriteList_bytes_frame (s : State) (a : Nat) (l : List Byte) :
    ChangesOnly (fun p => ∃ b, p = .byte b) s (s.memWriteList a l) :=
  (s.memWriteList_frame a l).mono fun _ ⟨b, hb, _⟩ => ⟨b, hb⟩

/-- A completed `FX55` writes bytes of memory and then `I` (R124). -/
theorem State.storeRegs_advanceIndex_frame (s : State) (n m : Nat) :
    ChangesOnly (fun p => (∃ a, p = .byte a) ∨ p = .index) s ((s.storeRegs n).advanceIndex m) :=
  ((s.storeRegs_frame n).mono fun _ ⟨a, ha, _⟩ => .inl ⟨a, ha⟩).trans
    (((s.storeRegs n).setIndex_frame _).mono (by simp))

/-- A completed `FX65` writes registers and then `I` (R125). -/
theorem State.loadRegs_advanceIndex_frame (s : State) {n : Nat} (m : Nat) (hn : n ≤ 16) :
    ChangesOnly (fun p => (∃ x, p = .reg x) ∨ p = .index) s ((s.loadRegs n).advanceIndex m) :=
  ((s.loadRegs_frame hn).mono fun _ ⟨x, hx, _⟩ => .inl ⟨x, hx⟩).trans
    (((s.loadRegs n).setIndex_frame _).mono (by simp))

/-- Every instruction raises a fault it may raise and does nothing else, or completes and writes only what it is
listed to write. One case per row of the opcode table; rows with the same frame stand together. -/
theorem exec_answer (i : Instr) (s : State) : ExecAnswer i s (exec i s) := by
  cases i with
  | unknown w => exact .completes (ChangesOnly.refl (fun _ => False) s)
  | cls => exact .completes (s.setDisplay_frame _)
  | ret =>
    rcases execRet_cases s with h | ⟨a, k, -, h⟩ <;> rw [exec, h]
    · exact .raises
    · exact .completes (s.setStack_setPc_frame k a)
  | call nnn =>
    rcases execCall_cases nnn s with h | ⟨k, -, h⟩ <;> rw [exec, h]
    · exact .raises
    · exact .completes (s.setStack_setPc_frame k _)
  | jmp | jmpV0 | seImm | sneImm | seReg | sneReg => exact .completes (s.setPc_frame _)
  | ldImm | addImm | ldReg | orReg | andReg | xorReg | ldVxDT => exact .completes (s.setReg_frame _ _)
  | addReg | subReg | shr | subn | shl => exact .completes (s.setFlagged_frame _ _ _)
  | rnd x nn => exact .completes (s.rndWith_frame x nn _)
  | drw x y n => exact .checked (s.setDisplay_setReg_frame _ _ _)
  | skp | sknp => exact .checked (s.setPc_frame _)
  | ldVxK x => exact .completes (s.keyWaitWith_frame x _)
  | ldDTVx x => exact .completes (s.setDelay_frame _)
  | ldSTVx x => exact .completes (s.setSound_frame _)
  | ldI | addI | ldF => exact .completes (s.setIndex_frame _)
  | ldB x => exact .checked (s.memWriteList_bytes_frame _ _)
  | store x => exact .checked (s.storeRegs_advanceIndex_frame _ _)
  | load x => exact .checked (s.loadRegs_advanceIndex_frame _ x.isLt)

/-- The listed writers of `FAULT` are the listed writers of the slots (60_exceptions.md R183, log 1). -/
theorem writersOf_slots : writersOf .slots = writersOf .fault := rfl

/-- Settles O49: an instruction that raises writes `FAULT` and the slots and is a listed writer of both; one that
completes writes only pieces it is a listed writer of. -/
theorem onlyTheListedInstructionsWrite : Obligations.OnlyTheListedInstructionsWrite := by
  intro i s t p h hp
  rcases exec_answer i s with ⟨c, n, hr, hi⟩ | ⟨u, hu, hframe⟩
  · obtain rfl := Host.Outcome.next.inj (h.symm.trans hr)
    refine s.raise_frame c n p ?_
    rintro (rfl | rfl)
    · exact hp hi
    · exact hp (writersOf_slots ▸ hi)
  · obtain rfl := Host.Outcome.next.inj (h.symm.trans hu)
    exact hframe p fun hw => hp hw.1

/-! ## The parameters stay (00_scope.md R4) -/

/-- No instruction changes the depth of the stack: of the two that write it, a return pops and a call pushes
inside the entries. -/
theorem exec_depth {i : Instr} {s t : State} (h : exec i s = .next t) : t.stack.depth = s.stack.depth := by
  cases i with
  | ret =>
    rcases execRet_cases s with hr | ⟨a, k, hk, hr⟩ <;> obtain rfl := Host.Outcome.next.inj (h.symm.trans hr)
    · simp
    · simpa using hk
  | call nnn =>
    rcases execCall_cases nnn s with hr | ⟨k, hk, hr⟩ <;> obtain rfl := Host.Outcome.next.inj (h.symm.trans hr)
    · simp
    · simpa using hk
  | _ =>
    exact congrArg CallStack.depth
      (onlyTheListedInstructionsWrite _ s t .stack h (by simp [tableIndex, writersOf]))

theorem exec_params {i : Instr} {s t : State} (h : exec i s = .next t) : t.params = s.params := by
  obtain ⟨hfont, hipt⟩ : t.font = s.font ∧ t.ipt = s.ipt :=
    onlyTheListedInstructionsWrite i s t .params h (by simp [writersOf])
  simp [State.params, hfont, hipt, exec_depth h]

theorem State.settle_params {s t : State} (h : t.params = s.params) : (s.settle t).params = s.params := by
  cases hf : t.fault with
  | none => rwa [State.settle_of_none hf]
  | some r => simp [State.settle_of_some hf]

/-- A settled step comes from an execute part that answered a next state. -/
theorem State.settleOutcome_eq_next {s t : State} {o : Host.Outcome State Fault Refusal}
    (h : s.settleOutcome o = .next t) : ∃ u, o = .next u ∧ t = s.settle u := by
  cases o with
  | next u => exact ⟨u, rfl, (Host.Outcome.next.inj h).symm⟩
  | fault f => cases h
  | refused r => cases h

/-- Neither the execute part of a step nor the undoing of a fault changes the parameters. -/
theorem settleOutcome_exec_params {i : Instr} {s t : State} {w : Word}
    (h : s.settleOutcome (exec i (s.fetched w)) = .next t) : t.params = s.params := by
  obtain ⟨u, hu, rfl⟩ := State.settleOutcome_eq_next h
  exact State.settle_params ((exec_params hu).trans (s.fetched_params w))

@[simp] theorem State.atSlot_params (s : State) : s.atSlot.params = s.params := by simp [State.params]

theorem step_params {s t : State} (h : step s = .next t) : t.params = s.params := by
  rcases step_cases s with ⟨r, -, hs⟩ | ⟨-, -, hs⟩ | ⟨-, -, -, hs⟩ | ⟨w, -, -, -, hs⟩ <;> rw [hs] at h
  · obtain rfl := Host.Outcome.next.inj h; simp
  · obtain rfl := Host.Outcome.next.inj h; simp
  · obtain rfl := Host.Outcome.next.inj h; simp
  · rw [settleOutcome_exec_params h, State.atSlot_params]

theorem instrStep_params {s t : State} (h : instrStep s = .next t) : t.params = s.params := by
  rcases instrStep_cases s with ⟨-, hs⟩ | ⟨w, -, hs⟩ <;> rw [hs] at h
  · obtain rfl := Host.Outcome.next.inj h; simp
  · exact settleOutcome_exec_params h

/-- What the slots of a tick can answer where there is one: the state its instruction leaves, or what the other
slots answer from that state (R157). -/
theorem runSlots_succ_eq_next {n : Nat} {s t : State} (h : runSlots (n + 1) s = .next t) :
    ∃ u, instrStep s = .next u ∧ (t = u ∨ runSlots n u = .next t) := by
  cases hs : instrStep s with
  | next u =>
    simp only [runSlots, hs] at h
    split at h
    · exact ⟨u, rfl, .inl (Host.Outcome.next.inj h).symm⟩
    · exact ⟨u, rfl, .inr h⟩
  | fault f => simp [runSlots, hs] at h
  | refused r => simp [runSlots, hs] at h

theorem runSlots_params {n : Nat} {s t : State} (h : runSlots n s = .next t) : t.params = s.params := by
  induction n generalizing s with
  | zero => obtain rfl := Host.Outcome.next.inj h; rfl
  | succ n ih =>
    obtain ⟨u, hu, rfl | ht⟩ := runSlots_succ_eq_next h
    · exact instrStep_params hu
    · exact (ih ht).trans (instrStep_params hu)

theorem tick_params {k : BitVec 16} {s t : State} (h : tick k s = .next t) : t.params = s.params := by
  unfold tick at h
  split at h
  · obtain rfl := Host.Outcome.next.inj h; simp
  · simpa using runSlots_params h

@[simp] theorem State.resetEvent_params (s : State) : s.resetEvent.params = s.params := by simp [State.params]

@[simp] theorem State.loadRom_params (s : State) (rom : List Byte) : (s.loadRom rom).params = s.params := by
  simp [State.params, State.loadRom]

@[simp] theorem State.powerOnEvent_params (s : State) : s.powerOnEvent.params = s.params := by
  simp [State.params, State.powerOnEvent, State.powerOn, CallStack.depth]

theorem hostEvent_params {e : Event} {s t : State} (h : hostEvent e s = .next t) : t.params = s.params := by
  cases e with
  | tick k => exact tick_params h
  | powerOn => obtain rfl := Host.Outcome.next.inj h; simp
  | reset => obtain rfl := Host.Outcome.next.inj h; simp
  | loadRom rom => obtain rfl := Host.Outcome.next.inj h; simp
  | disassemble lo hi => obtain rfl := Host.Outcome.next.inj h; rfl

/-- Settles O51: each step and each of the five requests keeps `IPT`, `STACK_DEPTH` and `FONT`. -/
theorem parametersStay : Obligations.ParametersStay :=
  ⟨fun _ _ => step_params, fun _ _ _ => hostEvent_params⟩

end Sys2Proof.Machine

/-! PROOFS. The statements of 10_state.md: nested calls and returns, the writers of VF, what a tick keeps and what
its head writes, and the values a reset leaves. `execFetched_call` and `execFetched_ret` say what one call and one
return do; `runSlots_same` says once what the instructions of a tick leave alone. -/

namespace Sys2Proof.Machine

/-! ## Nested calls and returns (R18, R19, R81, R83) -/

/-- The valid entries of the stack, entry 0 first, are the list the model holds them in, reversed (log 8). -/
theorem CallStack.take_sp_entries (k : CallStack) : k.entries.take k.sp = k.live.reverse :=
  List.take_left' k.live.length_reverse

theorem CallStack.push_of_lt {k : CallStack} (a : Word) (h : k.sp < k.depth) :
    ∃ k', k.push a = some k' ∧ k'.live = a :: k.live ∧ k'.depth = k.depth := by
  obtain ⟨live, dead⟩ := k
  cases dead with
  | nil => simp [CallStack.sp, CallStack.depth] at h
  | cons d rest => exact ⟨_, rfl, rfl, by simp [CallStack.depth]; omega⟩

theorem CallStack.pop_of_live {k : CallStack} {a : Word} {rest : List Word} (h : k.live = a :: rest) :
    ∃ k', k.pop = some (a, k') ∧ k'.live = rest := by
  simp [CallStack.pop, h]

theorem State.fetched_frame (s : State) (w : Word) :
    ChangesOnly (fun p => p = .pc ∨ p = .ir ∨ p = .slots) s (s.fetched w) := by
  intro p hp; cases p <;> simp_all [Part.Same]

/-- The pieces a call or a return writes together with the fetch of its word. -/
def CallParts (p : Part) : Prop := p = .pc ∨ p = .stack ∨ p = .ir ∨ p = .slots

/-- The fetch of a word, then the stack and `PC` written. -/
theorem State.fetched_setStack_setPc_frame (s : State) (w : Word) (k : CallStack) (a : Word) :
    ChangesOnly CallParts s (((s.fetched w).setStack k).setPc a) :=
  ((s.fetched_frame w).mono (by simp [CallParts])).trans
    (((s.fetched w).setStack_setPc_frame k a).mono (by simp [CallParts]))

/-- A fetched call with a free entry pushes the address of the next instruction (R83). -/
theorem execFetched_call (nnn : Addr12) {s : State} (h : s.stack.sp < s.stack.depth) :
    ∃ t, execFetched (.call nnn) s = .next t ∧ t.stack.live = (s.pc + 2) :: s.stack.live
      ∧ t.stack.depth = s.stack.depth ∧ ChangesOnly CallParts s t := by
  obtain ⟨k, hk, hlive, hdepth⟩ := CallStack.push_of_lt (s.pc + 2) h
  exact ⟨_, by simp only [execFetched, exec, execCall, State.fetched_stack, State.fetched_pc, hk]; rfl,
    hlive, hdepth, s.fetched_setStack_setPc_frame _ k _⟩

/-- A fetched return takes the newest valid entry off the stack and goes there (R81). -/
theorem execFetched_ret {s : State} {a : Word} {rest : List Word} (h : s.stack.live = a :: rest) :
    ∃ t, execFetched .ret s = .next t ∧ t.pc = a ∧ t.stack.live = rest ∧ ChangesOnly CallParts s t := by
  obtain ⟨k, hk, hlive⟩ := CallStack.pop_of_live h
  exact ⟨_, by simp only [execFetched, exec, execRet, State.fetched_stack, hk]; rfl, rfl, hlive,
    s.fetched_setStack_setPc_frame _ k a⟩

theorem execSeq_cons {i : Instr} {s t : State} (h : execFetched i s = .next t) (is : List Instr) :
    execSeq (i :: is) s = execSeq is t := by simp only [execSeq, h]

theorem execSeq_append {is : List Instr} {s t : State} (h : execSeq is s = .next t) (js : List Instr) :
    execSeq (is ++ js) s = execSeq js t := by
  induction is generalizing s with
  | nil => obtain rfl := Host.Outcome.next.inj h; rfl
  | cons i is ih =>
    cases hi : execFetched i s with
    | next u => rw [execSeq_cons hi] at h; rw [List.cons_append, execSeq_cons hi, ih h]
    | fault f => simp [execSeq, hi] at h
    | refused r => simp [execSeq, hi] at h

/-- Calls to the targets, then as many returns. -/
def callsThenRets (ns : List Addr12) : List Instr := ns.map .call ++ List.replicate ns.length .ret

/-- The first call and the last return enclose the calls and returns between them. -/
theorem callsThenRets_cons (n : Addr12) (ns : List Addr12) :
    callsThenRets (n :: ns) = .call n :: (callsThenRets ns ++ [.ret]) := by
  simp [callsThenRets, List.replicate_succ']

/-- Calls that fit in the free entries and as many returns leave the valid entries as they were: by the induction
hypothesis the inner ones keep the address the first call pushed, and the last return goes there. -/
theorem execSeq_callsThenRets (ns : List Addr12) (s : State) (h : s.stack.sp + ns.length ≤ s.stack.depth) :
    ∃ t, execSeq (callsThenRets ns) s = .next t ∧ (ns ≠ [] → t.pc = s.pc + 2)
      ∧ t.stack.live = s.stack.live ∧ ChangesOnly CallParts s t := by
  induction ns generalizing s with
  | nil => exact ⟨s, rfl, (absurd rfl ·), rfl, .refl _ s⟩
  | cons n ns ih =>
    rw [List.length_cons] at h
    obtain ⟨u, hcall, hu, hdepth, hsu⟩ := execFetched_call n (s := s) (by omega)
    have hsp : u.stack.sp = s.stack.sp + 1 := by simp [CallStack.sp, hu]
    obtain ⟨v, hinner, -, hv, huv⟩ := ih u (by omega)
    obtain ⟨t, hret, hpc, hlive, hvt⟩ := execFetched_ret (hv.trans hu)
    refine ⟨t, ?_, fun _ => hpc, hlive, (hsu.trans huv).trans hvt⟩
    rw [callsThenRets_cons, execSeq_cons hcall, execSeq_append hinner, execSeq_cons hret]
    rfl

/-- Settles O11: the valid entries are the list the calls and returns leave as it was. -/
theorem nestedCallsReturn : Obligations.NestedCallsReturn := by
  intro ns s hns hfits
  obtain ⟨t, hseq, hpc, hlive, hframe⟩ := execSeq_callsThenRets ns s hfits
  have hsp : t.stack.sp = s.stack.sp := congrArg List.length hlive
  refine ⟨t, hseq, hpc hns, hsp, ?_, hframe⟩
  rw [CallStack.take_sp_entries, ← hlive, ← CallStack.take_sp_entries, hsp]

/-! ## The writers of VF (R13, R14) -/

/-- The entries that write VF as a flag: 8XY4 to 8XY7, 8XYE and DXYN. -/
abbrev flagWriters : List (Fin 35) := [14, 15, 16, 17, 18, 23]

/-- A completed `FX65` leaves the registers above its last alone (R125). -/
theorem execLoad_reg_above {x y : Nibble} {s t : State} (h : execLoad x s = .next t) (hxy : x.toNat < y.toNat) :
    t.reg y = s.reg y := by
  rcases s.checked_cases _ _ _ _ with ⟨-, hc⟩ | ⟨-, hc⟩ <;> obtain rfl := Host.Outcome.next.inj (h.symm.trans hc)
  · rw [State.advanceIndex_reg, State.reg_loadRegs s x.isLt, if_neg (by omega)]
  · exact s.raise_reg _ _ y

/-- An instruction that writes no flag and whose destination is not VF keeps VF: those that write one register
write another, FX65 stops below VF, and no other is a listed writer of it. -/
theorem exec_keeps_vf {i : Instr} {s t : State} (h : exec i s = .next t) (hi : tableIndex i ∉ flagWriters)
    (hx : xOf (encode i) ≠ vf) : t.reg vf = s.reg vf := by
  cases i with
  | addReg | subReg | shr | subn | shl | drw => exact absurd (by simp [tableIndex]) hi
  | ldImm x | addImm x | ldReg x | orReg x | andReg x | xorReg x | ldVxDT x =>
    obtain rfl := Host.Outcome.next.inj h
    exact s.reg_setReg_other _ (by simpa [encode] using hx.symm)
  | rnd x nn =>
    obtain rfl := Host.Outcome.next.inj h
    exact s.drawRnd.reg_setReg_other _ (by simpa [encode] using hx.symm)
  | ldVxK x =>
    obtain rfl := Host.Outcome.next.inj h
    exact s.keyWaitWith_frame x _ (.reg vf) (by simpa [encode] using hx.symm)
  | load x =>
    have hne : x ≠ vf := by simpa [encode] using hx
    exact execLoad_reg_above h (by unfold vf at hne ⊢; bv_omega)
  | _ => exact onlyTheListedInstructionsWrite _ s t (.reg vf) h (by simp [tableIndex, writersOf])

/-- The six that write a flag leave it in VF, where they do not fault (R99, R106 to R110, R131). -/
theorem exec_flagWriter_vf {i : Instr} {s t : State} (h : exec i s = .next t) (hi : tableIndex i ∈ flagWriters)
    (ht : t.fault = none) : ∃ f, t.reg vf = flagByte f := by
  cases i with
  | addReg | subReg | shr | subn | shl =>
    obtain rfl := Host.Outcome.next.inj h
    exact ⟨_, State.reg_setReg_same _ _ _⟩
  | drw x y n =>
    rcases s.checked_cases _ _ _ _ with ⟨-, hc⟩ | ⟨-, hc⟩ <;>
      obtain rfl := Host.Outcome.next.inj (h.symm.trans hc)
    · exact ⟨_, State.reg_setReg_same _ _ _⟩
    · simp at ht
  | _ => simp [tableIndex] at hi

/-- Settles O50: an instruction that is neither a flag writer nor has VF as its destination keeps VF, and a flag is
0 or 1. -/
theorem flagWritersOfVf : Obligations.FlagWritersOfVf := by
  intro i s t h
  refine ⟨fun hvf => ?_, fun hi ht => ?_⟩
  · by_contra hno
    obtain ⟨hi, hx⟩ := not_or.1 hno
    exact hvf (exec_keeps_vf h hi hx)
  · obtain ⟨f, hf⟩ := exec_flagWriter_vf h hi ht
    exact hf ▸ flagByte_zero_or_one f

/-! ## What the instructions of a tick leave alone (R22, R158) -/

section
variable {p : Part} (hp : writersOf p = []) (hir : p ≠ .ir)
include hp hir

/-- A piece that no instruction writes, and that is not the fetched word, stays through one instruction step, which
always answers a next state. -/
theorem instrStep_same (s : State) : ∃ t, instrStep s = .next t ∧ p.Same s t := by
  have hfault : ¬ (p = .fault ∨ p = .slots) := by rintro (rfl | rfl) <;> simp [writersOf] at hp
  rcases instrStep_cases s with ⟨-, hs⟩ | ⟨w, -, hs⟩
  · exact ⟨_, hs, s.enterFault_frame _ p hfault⟩
  · obtain ⟨u, hu⟩ : ∃ u, exec (decode w) (s.fetched w) = .next u := by
      rcases exec_answer (decode w) (s.fetched w) with ⟨c, n, hr, -⟩ | ⟨u, hu, -⟩
      exacts [⟨_, hr⟩, ⟨u, hu⟩]
    refine ⟨s.settle u, by rw [hs, hu]; rfl, ?_⟩
    cases hf : u.fault with
    | none =>
      rw [State.settle_of_none hf]
      have hfetch : p.Same s (s.fetched w) :=
        s.fetched_frame w p (by rintro (rfl | rfl | rfl) <;> simp [writersOf] at hp hir)
      exact hfetch.trans (onlyTheListedInstructionsWrite _ _ u p hu (by simp [hp]))
    | some r => rw [State.settle_of_some hf]; exact s.enterFault_frame r p hfault

theorem runSlots_same (n : Nat) (s : State) : ∃ t, runSlots n s = .next t ∧ p.Same s t := by
  induction n generalizing s with
  | zero => exact ⟨s, rfl, ChangesOnly.refl (fun _ => False) s p id⟩
  | succ n ih =>
    obtain ⟨u, hu, hsu⟩ := instrStep_same hp hir s
    cases hf : u.fault.isSome with
    | true => exact ⟨u, by simp [runSlots, hu, hf], hsu⟩
    | false =>
      obtain ⟨t, ht, hut⟩ := ih u
      exact ⟨t, by simp [runSlots, hu, hf, ht], hsu.trans hut⟩

end

/-- A tick of an unfaulted machine is its head and then its slots (R157). -/
theorem tick_of_none {s : State} (k : BitVec 16) (h : s.fault = none) :
    tick k s = runSlots s.ipt (s.openTick k) := by simp [tick, h]

/-- A tick of a faulted machine is idle (R157, R184). -/
theorem tick_of_some {s : State} {r : FaultRecord} (k : BitVec 16) (h : s.fault = some r) :
    tick k s = .next s.idleTick := by simp [tick, h]

/-- Settles O47: the head of the tick takes the snapshot and counts the tick, and no instruction writes either. -/
theorem snapshotHoldsForTheTick : Obligations.SnapshotHoldsForTheTick := by
  intro s k hf
  rw [tick_of_none k hf]
  obtain ⟨t, ht, hkeys⟩ := runSlots_same (p := .keys) rfl (by simp) s.ipt (s.openTick k)
  obtain ⟨u, hu, htick⟩ := runSlots_same (p := .tickNo) rfl (by simp) s.ipt (s.openTick k)
  obtain rfl := Host.Outcome.next.inj (hu.symm.trans ht)
  exact ⟨u, ht, hkeys, htick⟩

/-! ## The head of a tick (R20, R157, R189) -/

/-- A timer goes down by one and stops at 0. -/
theorem toNat_timerTick (b : Byte) : (timerTick b).toNat = b.toNat - 1 := by
  unfold timerTick
  split
  · simp [*]
  · bv_omega

theorem State.openTick_frame (s : State) (k : BitVec 16) :
    ChangesOnly (fun p => p = .delay ∨ p = .sound ∨ p = .audio ∨ p = .keys ∨ p = .slots ∨ p = .tickNo) s
      (s.openTick k) := by
  intro p hp; cases p <;> simp_all [Part.Same]

/-- Settles O48: each timer by the law of one timer, the rest by the frame of the head. -/
theorem timersCountDownOncePerTick : Obligations.TimersCountDownOncePerTick := fun s k =>
  ⟨toNat_timerTick s.dt, toNat_timerTick s.st, rfl, s.openTick_frame k⟩

/-! ## Requests of the host: the fault record, and the values after a reset (R24, R31, R184, R211) -/

@[simp] theorem State.powerOnEvent_fault (s : State) : s.powerOnEvent.fault = none := rfl

@[simp] theorem State.loadRom_fault (s : State) (rom : List Byte) : (s.loadRom rom).fault = none := by
  simp [State.loadRom]

/-- Settles O43: the three requests that reset clear the record; the tick of a faulted machine is idle, and the
disassembler changes no state. -/
theorem onlyResetsClearTheFault : Obligations.OnlyResetsClearTheFault := by
  intro s t r e hf h
  cases e with
  | powerOn => obtain rfl := Host.Outcome.next.inj h; simp
  | reset => obtain rfl := Host.Outcome.next.inj h; simp
  | loadRom rom => obtain rfl := Host.Outcome.next.inj h; simp
  | tick k => obtain rfl := Host.Outcome.next.inj ((tick_of_some k hf).symm.trans h); simp [hf]
  | disassemble lo hi => obtain rfl := Host.Outcome.next.inj h; simp [hf]

/-- At power-on memory lists nothing, no slot is open and no fault is recorded. -/
theorem State.powerOn_inv (p : Params) : (State.powerOn p).Inv := by
  have hmem : Memory.wf (Memory.unlisted p.font) [] := by simp [Memory.wf]
  exact ⟨hmem, p.ipt.zero_le, nofun⟩

/-- Settles O52: `State.reset` is the power-on of the default parameters by definition. -/
theorem resetMeetsTheInvariant : Obligations.ResetMeetsTheInvariant := fun p => ⟨State.powerOn_inv p, rfl⟩

/-- Settles O56: the fields by the laws of the reset, memory by its law that a reset restores the font and no other
byte. -/
theorem resetValues : Obligations.ResetValues := by
  intro s
  have hentries : ∀ a ∈ s.resetEvent.stack.entries, a = 0 := by simp
  have hfont (a : Nat) (h : a < 80) : s.resetEvent.memRead a = s.font[a] := by
    rw [State.memRead_resetEvent, if_pos h, Memory.unlisted_font _ h]
  have hrest (a : Nat) (h : 80 ≤ a) : s.resetEvent.memRead a = s.memRead a := by
    rw [State.memRead_resetEvent, if_neg (by omega)]
  exact ⟨s.resetEvent, rfl, s.reg_resetEvent, rfl, rfl, rfl, hentries, CallStack.depth_fresh _, rfl, rfl, rfl, rfl,
    rfl, Display.pixel_clear, hfont, hrest⟩

end Sys2Proof.Machine

/-! PROOFS. The statements of 20_memory.md: a step keeps the invariant, the bytes FX55 stores are fetched, memory
is determined by its reads, and the fetch is big-endian. `exec_fault` says once which fault an instruction raises
(60_exceptions.md R181), and `exec_inv` what executing one does to the invariant. -/

namespace Sys2Proof.Machine

/-! ## The faults an instruction raises (60_exceptions.md R181, R183) -/

/-- A check that fails is the only source of a fault where the effect of the instruction records none. -/
theorem State.checked_fault {s t u : State} {ok : Bool} {c : Fault} {n : Nat} {r : FaultRecord}
    (h : s.checked ok c n t = .next u) (ht : t.fault = none) (hr : u.fault = some r) :
    ok = false ∧ r = ⟨c, s.pc - 2, s.ir, n⟩ := by
  rcases s.checked_cases t ok c n with ⟨-, hc⟩ | ⟨hok, hc⟩ <;> obtain rfl := Host.Outcome.next.inj (h.symm.trans hc)
  · simp [ht] at hr
  · exact ⟨hok, by simpa using hr.symm⟩

/-- The record an instruction of an unfaulted machine leaves names a fault that R181 has a row for, with the address
the instruction was fetched from and its word. -/
theorem exec_fault {i : Instr} {s t : State} {r : FaultRecord} (h : exec i s = .next t) (hs : s.fault = none)
    (hr : t.fault = some r) :
    ∃ c n, raisedBy i s = some (c.code, n) ∧ r = ⟨c, s.pc - 2, s.ir, n⟩ := by
  cases i with
  | ret =>
    rcases s.stack.pop_cases with ⟨hsp, hpop⟩ | ⟨-, a, k, hpop, -⟩ <;> simp only [exec, execRet, hpop] at h <;>
      obtain rfl := Host.Outcome.next.inj h
    · exact ⟨.stackUnderflow, 0, by simp [raisedBy, hsp], by simpa using hr.symm⟩
    · simp [hs] at hr
  | call nnn =>
    rcases s.stack.push_cases s.pc with ⟨hsp, hpush⟩ | ⟨-, k, hpush, -⟩ <;> simp only [exec, execCall, hpush] at h <;>
      obtain rfl := Host.Outcome.next.inj h
    · exact ⟨.stackOverflow, 0, by simp [raisedBy, hsp], by simpa using hr.symm⟩
    · simp [hs] at hr
  | drw x y n =>
    obtain ⟨hfits, rfl⟩ := State.checked_fault h (by simpa using hs) hr
    obtain ⟨hn, hhigh⟩ := (s.spriteFits_eq_false _).1 hfits
    have hn0 : n ≠ 0 := by rintro rfl; exact hn rfl
    exact ⟨.memOutOfRange, _, if_pos ⟨hn0, hhigh⟩, rfl⟩
  | ldB | store | load =>
    obtain ⟨hfits, rfl⟩ := State.checked_fault h (by simpa using hs) hr
    exact ⟨.memOutOfRange, _, by simp [raisedBy, (s.accessFits_eq_false _).1 hfits], rfl⟩
  | skp | sknp =>
    obtain ⟨hkey, rfl⟩ := State.checked_fault h (by simpa using hs) hr
    have hhigh := Nat.not_le.1 (of_decide_eq_false hkey)
    exact ⟨.keyIndexOutOfRange, _, by simp [raisedBy, hhigh], rfl⟩
  | _ =>
    have hsame : t.fault = s.fault :=
      onlyTheListedInstructionsWrite _ s t .fault h (by simp [tableIndex, writersOf])
    simp [hsame, hs] at hr

/-- Where the table gives a code and a value, its row's condition holds, and the code names the row's cause. -/
theorem raisedBy_row {P : Prop} [Decidable P] {c d : Fault} {m n : Nat}
    (h : (if P then some (d.code, m) else none) = some (c.code, n)) : P ∧ d = c ∧ m = n := by
  obtain ⟨hP, hpair⟩ := Option.ite_none_right_eq_some.1 h
  obtain ⟨hcode, hinfo⟩ := Prod.mk.inj (Option.some.inj hpair)
  exact ⟨hP, Fault.code_injective hcode, hinfo⟩

/-- An access of at most 16 bytes that leaves memory is recorded with an address of at most `0xFFFF + 15`. -/
theorem memOutOfRange_coherent {s : State} {w pc : Word} {k : Nat}
    (hi : [23, 32, 33, 34].elem (tableIndex (decode w)) = true) (hk : k ≤ 15) (hhigh : 0x0FFF < s.effAddr k)
    (hpc : pc.toNat ≤ 0x0FFE) : FaultRecord.coherent ⟨.memOutOfRange, pc, w, s.effAddr k⟩ = true := by
  have hle : s.effAddr k ≤ 0xFFFF + 15 := by have := s.i.isLt; unfold State.effAddr; omega
  simp only [FaultRecord.coherent, hi, hhigh, hle, hpc, decide_true, Bool.and_self]

/-- The record of a fault that R181 has a row for is coherent where the instruction was fetched from inside
memory. -/
theorem raisedBy_coherent {s : State} {w pc : Word} {c : Fault} {n : Nat}
    (h : raisedBy (decode w) s = some (c.code, n)) (hpc : pc.toNat ≤ 0x0FFE) :
    FaultRecord.coherent ⟨c, pc, w, n⟩ = true := by
  cases hi : decode w with
  | ret =>
    rw [hi] at h
    obtain ⟨-, rfl, rfl⟩ := raisedBy_row (d := .stackUnderflow) h
    simp [FaultRecord.coherent, hi, tableIndex, hpc]
  | call nnn =>
    rw [hi] at h
    obtain ⟨-, rfl, rfl⟩ := raisedBy_row (d := .stackOverflow) h
    simp [FaultRecord.coherent, hi, tableIndex, hpc]
  | drw x y k =>
    rw [hi] at h
    obtain ⟨⟨-, hhigh⟩, rfl, rfl⟩ := raisedBy_row (d := .memOutOfRange) h
    exact memOutOfRange_coherent (by simp [hi, tableIndex]) (by omega) hhigh hpc
  | ldB | store | load =>
    rw [hi] at h
    obtain ⟨hhigh, rfl, rfl⟩ := raisedBy_row (d := .memOutOfRange) h
    exact memOutOfRange_coherent (by simp [hi, tableIndex]) (by omega) hhigh hpc
  | skp x | sknp x =>
    rw [hi] at h
    obtain ⟨hhigh, rfl, rfl⟩ := raisedBy_row (d := .keyIndexOutOfRange) h
    have hle : (s.reg x).toNat ≤ 255 := by omega
    simp [FaultRecord.coherent, hi, tableIndex, hpc, hhigh, hle]
  | _ => simp [hi, raisedBy] at h

/-! ## The invariant -/

theorem State.idleTick_inv {s : State} (h : s.Inv) : s.idleTick.Inv := h

theorem State.openTick_inv {s : State} (k : BitVec 16) (hf : s.fault = none) (h : s.Inv) : (s.openTick k).Inv :=
  ⟨h.1, le_rfl, by simp [hf]⟩

theorem State.atSlot_inv {s : State} (hf : s.fault = none) (h : s.Inv) : s.atSlot.Inv := by
  unfold State.atSlot
  split
  · exact State.openTick_inv _ hf h
  · exact h

theorem State.fetched_inv {s : State} (w : Word) (hf : s.fault = none) (h : s.Inv) : (s.fetched w).Inv :=
  ⟨h.1, (Nat.sub_le ..).trans h.2.1, by simp [hf]⟩

theorem State.enterFault_inv {s : State} {r : FaultRecord} (hr : r.coherent = true) (h : s.Inv) :
    (s.enterFault r).Inv := ⟨h.1, Nat.zero_le _, by simpa using hr⟩

theorem State.settle_inv {s t : State} (hs : s.Inv) (ht : t.Inv) : (s.settle t).Inv := by
  cases hf : t.fault with
  | none => rwa [State.settle_of_none hf]
  | some r =>
    obtain ⟨-, -, hrecord⟩ := ht
    rw [State.settle_of_some hf]
    exact State.enterFault_inv (hrecord r hf).2 hs

/-- A fetch that reads is from inside memory. -/
theorem State.pc_le_of_fetchWord {s : State} {w : Word} (h : s.fetchWord = some w) : s.pc.toNat ≤ 0x0FFE := by
  by_contra hpc
  simp [State.fetchWord_of_gt (Nat.not_le.1 hpc)] at h

theorem State.raiseFetch_inv {s : State} (hw : s.fetchWord = none) (h : s.Inv) : s.raiseFetch.Inv := by
  have hpc : 0x0FFE < s.pc.toNat := by
    by_contra hpc
    simp [State.fetchWord_of_le (Nat.not_lt.1 hpc)] at hw
  exact State.enterFault_inv (by simp [FaultRecord.coherent, hpc]) h

@[simp] theorem State.keyWaitWith_mem (s : State) (x : Nibble) (k : Config.KeySample) :
    (s.keyWaitWith x k).mem = s.mem := by
  unfold State.keyWaitWith; split <;> rfl

/-- A checked instruction leaves the memory of its effect or the memory it began with. -/
theorem State.checked_mem {s t u : State} {ok : Bool} {c : Fault} {n : Nat} (h : s.checked ok c n t = .next u) :
    u.mem = s.mem ∨ ok = true ∧ u.mem = t.mem := by
  rcases s.checked_cases t ok c n with ⟨hok, hc⟩ | ⟨-, hc⟩ <;> obtain rfl := Host.Outcome.next.inj (h.symm.trans hc)
  · exact .inr ⟨hok, rfl⟩
  · exact .inl rfl

/-- Memory stays in its canonical form: FX33 and FX55 write inside the bytes they have checked, and no other
instruction writes it. -/
theorem exec_mem_wf {i : Instr} {s t : State} (h : exec i s = .next t)
    (hs : Memory.wf (Memory.unlisted s.font) s.mem) : Memory.wf (Memory.unlisted s.font) t.mem := by
  cases i with
  | ldB x =>
    rcases State.checked_mem h with hm | ⟨hfits, hm⟩ <;> rw [hm]
    · exact hs
    · exact State.memWriteList_wf _ hs (Nat.succ_le_succ ((s.accessFits_eq_true 2).1 hfits))
  | store x =>
    rcases State.checked_mem h with hm | ⟨hfits, hm⟩ <;> rw [hm]
    · exact hs
    · exact State.storeRegs_wf hs (Nat.succ_le_succ ((s.accessFits_eq_true x.toNat).1 hfits))
  | ret =>
    rcases execRet_cases s with hr | ⟨a, k, -, hr⟩ <;> obtain rfl := Host.Outcome.next.inj (h.symm.trans hr)
    all_goals exact hs
  | call nnn =>
    rcases execCall_cases nnn s with hr | ⟨k, -, hr⟩ <;> obtain rfl := Host.Outcome.next.inj (h.symm.trans hr)
    all_goals exact hs
  | drw | skp | sknp =>
    rcases State.checked_mem h with hm | ⟨-, hm⟩ <;> rw [hm] <;> exact hs
  | load x =>
    rcases State.checked_mem h with hm | ⟨-, hm⟩ <;> rw [hm]
    · exact hs
    · simpa using hs
  | ldVxK x => obtain rfl := Host.Outcome.next.inj h; simpa using hs
  | _ => obtain rfl := Host.Outcome.next.inj h; exact hs

/-- Executing the fetched word keeps the invariant: the record of a fault is the one R181 gives, and an instruction
that completes leaves the slots and the record alone. -/
theorem exec_inv {s t : State} (h : exec (decode s.ir) s = .next t) (hf : s.fault = none)
    (hpc : (s.pc - 2).toNat ≤ 0x0FFE) (hs : s.Inv) : t.Inv := by
  rcases exec_answer (decode s.ir) s with ⟨c, n, hr, -⟩ | ⟨u, hu, hframe⟩
  · obtain rfl := Host.Outcome.next.inj (h.symm.trans hr)
    obtain ⟨c', n', hraised, hrecord⟩ := exec_fault h hf (s.raise_fault c n)
    have hcoherent : FaultRecord.coherent ⟨c, s.pc - 2, s.ir, n⟩ = true := by
      rw [hrecord]; exact raisedBy_coherent hraised hpc
    exact State.enterFault_inv hcoherent hs
  · obtain rfl := Host.Outcome.next.inj (h.symm.trans hu)
    have hslots : t.slotsLeft = s.slotsLeft := hframe .slots (by simp [Writes])
    have hfault : t.fault = s.fault := hframe .fault (by simp [Writes])
    obtain ⟨hfont, hipt⟩ : t.font = s.font ∧ t.ipt = s.ipt := hframe .params (by simp [Writes, writersOf])
    obtain ⟨hmem, hbudget, -⟩ := hs
    exact ⟨hfont ▸ exec_mem_wf h hmem, by omega, by simp [hfault, hf]⟩

/-- A step that fetches a word in an unfaulted machine keeps the invariant, whether its execute part completes or its
fault is settled. -/
theorem settleOutcome_exec_inv {s t : State} {w : Word} (hw : s.fetchWord = some w) (hf : s.fault = none)
    (h : s.settleOutcome (exec (decode w) (s.fetched w)) = .next t) (hs : s.Inv) : t.Inv := by
  obtain ⟨u, hu, rfl⟩ := State.settleOutcome_eq_next h
  have hpc : ((s.fetched w).pc - 2).toNat ≤ 0x0FFE := by simpa using State.pc_le_of_fetchWord hw
  exact State.settle_inv hs (exec_inv (s := s.fetched w) hu hf hpc (State.fetched_inv w hf hs))

/-- Settles O53: each of the four answers of a step keeps the invariant. -/
theorem stepKeepsTheInvariant : Obligations.StepKeepsTheInvariant := by
  intro s t hs h
  rcases step_cases s with ⟨r, -, hi⟩ | ⟨hf, -, hi⟩ | ⟨hf, -, hw, hi⟩ | ⟨w, hf, -, hw, hi⟩ <;> rw [hi] at h
  · obtain rfl := Host.Outcome.next.inj h
    exact State.idleTick_inv hs
  · obtain rfl := Host.Outcome.next.inj h
    exact State.atSlot_inv hf hs
  · obtain rfl := Host.Outcome.next.inj h
    exact State.raiseFetch_inv hw (State.atSlot_inv hf hs)
  · exact settleOutcome_exec_inv hw (s.atSlot_fault.trans hf) h (State.atSlot_inv hf hs)

/-! ## The fetch (R43, R48, R54) -/

/-- Settles O36, from the two laws of the fetch. -/
theorem fetchIsBigEndian : Obligations.FetchIsBigEndian := by
  refine fun s => ⟨fun hpc => ⟨_, State.fetchWord_of_le hpc, ?_⟩, State.fetchWord_of_gt⟩
  rw [toNat_wordOfBytes, Nat.mul_comm]

/-- A register stored by FX55 is what its address then reads as. -/
theorem State.memRead_storeRegs_effAddr (s : State) {n k : Nat} (h : k < n) :
    (s.storeRegs n).memRead (s.effAddr k) = s.reg (BitVec.ofNat 4 k) := by
  rw [State.memRead_storeRegs, if_pos (by unfold State.effAddr; omega), State.effAddr, Nat.add_sub_cancel_left]

/-- An FX55 whose access fits stores the registers and advances `I` (R124). -/
theorem exec_store_of_fits {x : Nibble} {s : State} (h : s.effAddr x.toNat ≤ 0x0FFF) :
    exec (.store x) s = .next ((s.storeRegs (x.toNat + 1)).advanceIndex (x.toNat + 1)) :=
  congrArg Host.Outcome.next (if_pos ((s.accessFits_eq_true _).2 h))

/-- Settles O25: the access fits, FX55 leaves `PC` alone, and both fetched bytes are stored registers. -/
theorem storedBytesAreFetched : Obligations.StoredBytesAreFetched := by
  intro x s k hfits hk hpc
  refine ⟨_, exec_store_of_fits hfits, ?_⟩
  have hnext : s.effAddr k + 1 = s.effAddr (k + 1) := rfl
  have hle : s.effAddr k ≤ 0x0FFE := by unfold State.effAddr at *; omega
  rw [State.fetchWord_of_le (by simpa [hpc] using hle)]
  simp only [State.advanceIndex_pc, State.storeRegs_pc, State.advanceIndex_memRead, hpc, hnext]
  rw [State.memRead_storeRegs_effAddr s (by omega), State.memRead_storeRegs_effAddr s (by omega)]

/-! ## The canonical form of memory (R40, R51; log 9) -/

/-- In a list of strictly rising addresses the cell at an address is the one found there. -/
theorem Memory.mem_iff_find {m : Memory} (h : m.Pairwise (fun p q => p.1 < q.1)) (c : Host.Cell) :
    c ∈ m ↔ Memory.find m c.1 = some c.2 := by
  obtain ⟨a, b⟩ := c
  induction m with
  | nil => simp [Memory.find]
  | cons d m ih =>
    obtain ⟨k, x⟩ := d
    obtain ⟨hlt, hm⟩ := List.pairwise_cons.1 h
    by_cases hk : k = a
    · subst hk
      have hnot : (k, b) ∉ m := fun hmem => Nat.lt_irrefl k (hlt _ hmem)
      simp [Memory.find, hnot, eq_comm]
    · simp [Memory.find, hk, Ne.symm hk, ih hm]

/-- A memory in canonical form lists exactly the addresses that read as another byte than their unlisted one. -/
theorem Memory.mem_iff_read {bg : Nat → Byte} {m : Memory} (h : Memory.wf bg m) (c : Host.Cell) :
    c ∈ m ↔ Memory.read bg m c.1 = c.2 ∧ c.2 ≠ bg c.1 := by
  obtain ⟨hsorted, hcells⟩ := h
  constructor
  · intro hc
    have hfind := (Memory.mem_iff_find hsorted c).1 hc
    exact ⟨by simp [Memory.read, hfind], (hcells c hc).2⟩
  · rintro ⟨hread, hne⟩
    rw [Memory.mem_iff_find hsorted]
    unfold Memory.read at hread
    cases hfind : Memory.find m c.1 with
    | none => simp [hfind, hne.symm] at hread
    | some b => simpa [hfind] using hread

/-- Settles O26: both memories have the same cells, and lists of strictly rising addresses with the same cells are
equal. -/
theorem memoryIsItsReads : Obligations.MemoryIsItsReads := by
  intro bg m m' hm hm' hread
  have : Std.Irrefl fun p q : Host.Cell => p.1 < q.1 := ⟨fun p => Nat.lt_irrefl p.1⟩
  have : Std.Antisymm fun p q : Host.Cell => p.1 < q.1 := ⟨fun _ _ h h' => absurd h (Nat.lt_asymm h')⟩
  refine hm.1.eq_of_mem_iff hm'.1 fun c => ?_
  rw [Memory.mem_iff_read hm, Memory.mem_iff_read hm', hread]

end Sys2Proof.Machine

/-! PROOFS. The statements of 30_encoding.md: the decoder and the encoder are inverse to each other, the words of
the unknown entry are those R67 lists, and the decoder agrees with the table of match and mask. The unknown words
come first: the two round trips and the table use which words they are. -/

namespace Sys2Proof

/-! ## The unknown words (R67) -/

theorem decode0_eq_unknown_iff (w : Word) : decode0 w = .unknown w ↔ w ≠ 0x00E0 ∧ w ≠ 0x00EE := by
  unfold decode0; split_ifs <;> simp_all

theorem decode8_eq_unknown_iff (w : Word) :
    decode8 w = .unknown w ↔ nOf w ∈ [0x8, 0x9, 0xA, 0xB, 0xC, 0xD, 0xF] := by
  rcases Nibble.cases (nOf w) with h | h | h | h | h | h | h | h | h | h | h | h | h | h | h | h <;>
    simp [decode8, h]

theorem decodeE_eq_unknown_iff (w : Word) : decodeE w = .unknown w ↔ nnOf w ∉ [0x9E, 0xA1] := by
  unfold decodeE; split_ifs <;> simp_all

theorem decodeF_eq_unknown_iff (w : Word) :
    decodeF w = .unknown w ↔ nnOf w ∉ [0x07, 0x0A, 0x15, 0x18, 0x1E, 0x29, 0x33, 0x55, 0x65] := by
  simp only [decodeF]; split_ifs <;> simp_all

/-- Settles O4: by the families of R64, of which only 0, 8, E and F have unknown words. -/
theorem unknownWordsAreThoseListed : Obligations.UnknownWordsAreThoseListed := by
  intro w
  rw [← decode0_eq_unknown_iff, ← decode8_eq_unknown_iff, ← decodeE_eq_unknown_iff, ← decodeF_eq_unknown_iff]
  rcases Nibble.cases (opOf w) with h | h | h | h | h | h | h | h | h | h | h | h | h | h | h | h <;>
    simp [decode, h]

/-- The decoder and the list of R67 name the same unknown words. -/
theorem decode_eq_unknown_iff (w : Word) : decode w = .unknown w ↔ unknownWord w = true := by
  rw [unknownWordsAreThoseListed w]
  simp only [unknownWord, Bool.or_eq_true, or_assoc]
  refine or_congr ?_ (or_congr ?_ (or_congr ?_ ?_)) <;>
    simp [← BitVec.toNat_inj, toNat_opOf, toNat_nOf, toNat_nnOf, and_assoc]

/-! ## Decoding an encoding (R61, R64) -/

theorem decode_encode {i : Instr} (h : i.wellFormed = true) : decode (encode i) = i := by
  cases i with
  | unknown w => exact (decode_eq_unknown_iff w).2 h
  | cls | ret => rfl
  | _ => simp [encode, decode, decode8, decodeE, decodeF]

/-- Settles O1: the known entries by the fields of their formats, the unknown one by the words it is for. -/
theorem decodeEncodeRoundTrip : Obligations.DecodeEncodeRoundTrip := fun _ => decode_encode

/-- Settles O5: both words are encodings, and neither the table index nor the meaning reads the nibble. -/
theorem lowNibbleIsIgnored : Obligations.LowNibbleIsIgnored := by
  intro x y k s
  have hse (n : Nibble) : decode (fmtXYN 0x5 x y n) = .seReg x y n := decode_encode (i := .seReg x y n) rfl
  have hsne (n : Nibble) : decode (fmtXYN 0x9 x y n) = .sneReg x y n := decode_encode (i := .sneReg x y n) rfl
  rw [hse, hse, hsne, hsne]
  exact ⟨rfl, rfl, rfl, rfl⟩

/-- Settles O6, by evaluating the decoder. -/
theorem sampleWordsDecode : Obligations.SampleWordsDecode := by
  unfold Obligations.SampleWordsDecode; decide

/-! ## Encoding a decoding (R61, R64) -/

theorem fmtNNN_of_fields {w : Word} {op : Nibble} (hop : opOf w = op) : fmtNNN op (nnnOf w) = w := by
  rw [← hop, fmtNNN_fields]

theorem fmtXNN_of_fields {w : Word} {op : Nibble} {nn : Byte} (hop : opOf w = op) (hnn : nnOf w = nn) :
    fmtXNN op (xOf w) nn = w := by
  rw [← hop, ← hnn, fmtXNN_fields]

theorem fmtXYN_of_fields {w : Word} {op n : Nibble} (hop : opOf w = op) (hn : nOf w = n) :
    fmtXYN op (xOf w) (yOf w) n = w := by
  rw [← hop, ← hn, fmtXYN_fields]

theorem encode_decode0 (w : Word) : encode (decode0 w) = w := by
  fun_cases decode0 w with
  | case1 h => exact h.symm
  | case2 _ h => exact h.symm
  | case3 => rfl

theorem encode_decode8 {w : Word} (hop : opOf w = 0x8) : encode (decode8 w) = w := by
  fun_cases decode8 w
  case case10 => rfl
  all_goals exact fmtXYN_of_fields hop ‹_›

theorem encode_decodeE {w : Word} (hop : opOf w = 0xE) : encode (decodeE w) = w := by
  fun_cases decodeE w
  case case3 => rfl
  all_goals exact fmtXNN_of_fields hop ‹_›

theorem encode_decodeF {w : Word} (hop : opOf w = 0xF) : encode (decodeF w) = w := by
  fun_cases decodeF w
  case case10 => rfl
  all_goals exact fmtXNN_of_fields hop ‹_›

/-- Every arm rebuilds the word from the fields it keeps and those it has tested. -/
theorem encode_decode (w : Word) : encode (decode w) = w := by
  fun_cases decode w with
  | case1 => exact encode_decode0 w
  | case9 => exact encode_decode8 ‹_›
  | case15 => exact encode_decodeE ‹_›
  | case16 => exact encode_decodeF (by have := Nibble.cases (opOf w); tauto)
  | case2 | case3 | case11 | case12 => exact fmtNNN_of_fields ‹_›
  | case4 | case5 | case7 | case8 | case13 => exact fmtXNN_of_fields ‹_› rfl
  | case6 | case10 | case14 => exact fmtXYN_of_fields ‹_› rfl

/-- A word decodes to the unknown entry of no other word. -/
theorem eq_of_decode_eq_unknown {w v : Word} (h : decode w = .unknown v) : v = w := by
  simpa [h, encode] using encode_decode w

theorem wellFormed_decode (w : Word) : (decode w).wellFormed = true := by
  cases h : decode w with
  | unknown v =>
    obtain rfl := eq_of_decode_eq_unknown h
    exact (decode_eq_unknown_iff v).1 h
  | _ => rfl

/-- Settles O2: each arm of the decoder keeps all the fields its tests leave open. -/
theorem encodeDecodeRoundTrip : Obligations.EncodeDecodeRoundTrip := fun w =>
  ⟨wellFormed_decode w, encode_decode w⟩

/-- The only word of a well-formed instruction is its encoding. -/
theorem decode_eq_iff {w : Word} {i : Instr} (hi : i.wellFormed = true) : decode w = i ↔ w = encode i :=
  ⟨fun h => h ▸ (encode_decode w).symm, fun h => h ▸ decode_encode hi⟩

/-! ## The table of match and mask (R66) -/

theorem TableRow.accepts_iff (r : TableRow) (w : Word) : r.accepts w = true ↔ w &&& r.mask = r.pattern :=
  beq_iff_eq

/-- Two rows that accept one word give the bits both masks cover the same values. -/
theorem TableRow.pattern_and_mask_of_accepts {r q : TableRow} {w : Word} (hr : r.accepts w = true)
    (hq : q.accepts w = true) : r.pattern &&& q.mask = q.pattern &&& r.mask := by
  rw [TableRow.accepts_iff] at hr hq
  rw [← hr, ← hq, BitVec.and_assoc, BitVec.and_assoc, BitVec.and_comm r.mask]

/-- Rows 1 to 34 are mutually exclusive. -/
theorem opcodeRows_exclusive {r q : TableRow} {w : Word} (hr : r ∈ opcodeRows) (hq : q ∈ opcodeRows)
    (hrw : r.accepts w = true) (hqw : q.accepts w = true) : r = q := by
  have hdiffer : ∀ r ∈ opcodeRows, ∀ q ∈ opcodeRows, r.pattern &&& q.mask = q.pattern &&& r.mask → r = q := by
    decide
  exact hdiffer r hr q hq (TableRow.pattern_and_mask_of_accepts hrw hqw)

/-- A field that the mask of a row covers has the row's value in every word the row accepts. -/
theorem TableRow.field_of_accepts {r : TableRow} {w : Word} (h : r.accepts w = true) (start len : Nat)
    (hm : r.mask.extractLsb' start len = BitVec.allOnes len) :
    w.extractLsb' start len = r.pattern.extractLsb' start len := by
  rw [← (r.accepts_iff w).1 h, BitVec.extractLsb'_and, hm, BitVec.and_allOnes]

/-! The three masks that leave operands open: a row of each accepts the words whose covered fields are its own. -/

theorem TableRow.accepts_of_op {r : TableRow} {w : Word} {op : Nibble} (hop : opOf w = op)
    (hm : r.mask = 0xF000#16) (hp : r.pattern = fmtNNN op 0#12) : r.accepts w = true := by
  rw [TableRow.accepts_iff, hm, hp, ← hop]
  apply BitVec.eq_of_toNat_eq
  rw [toNat_mask_op, toNat_fmtNNN, toNat_opOf, BitVec.toNat_zero, Nat.add_zero]

theorem TableRow.accepts_of_op_n {r : TableRow} {w : Word} {op n : Nibble} (hop : opOf w = op) (hn : nOf w = n)
    (hm : r.mask = 0xF00F#16) (hp : r.pattern = fmtXYN op 0#4 0#4 n) : r.accepts w = true := by
  rw [TableRow.accepts_iff, hm, hp, ← hop, ← hn]
  apply BitVec.eq_of_toNat_eq
  rw [toNat_mask_op_n, toNat_fmtXYN, toNat_opOf, toNat_nOf, BitVec.toNat_zero]; omega

theorem TableRow.accepts_of_op_nn {r : TableRow} {w : Word} {op : Nibble} {nn : Byte} (hop : opOf w = op)
    (hnn : nnOf w = nn) (hm : r.mask = 0xF0FF#16) (hp : r.pattern = fmtXNN op 0#4 nn) : r.accepts w = true := by
  rw [TableRow.accepts_iff, hm, hp, ← hop, ← hnn]
  apply BitVec.eq_of_toNat_eq
  rw [toNat_mask_op_nn, toNat_fmtXNN, toNat_opOf, toNat_nnOf, BitVec.toNat_zero]; omega

theorem opcodeRows_length : opcodeRows.length = 34 := rfl

/-- The row of a table index other than 0 (the fallback has no row). -/
def rowOf (e : Fin 35) : TableRow := opcodeRows[e.val - 1]'(by rw [opcodeRows_length]; omega)

theorem rowOf_mem (e : Fin 35) : rowOf e ∈ opcodeRows := List.getElem_mem _

theorem rowOf_index : ∀ e : Fin 35, e ≠ 0 → (rowOf e).index = e := by decide

/-- The row of an instruction's index accepts its word. -/
theorem rowOf_accepts_encode {i : Instr} (h : tableIndex i ≠ 0) :
    (rowOf (tableIndex i)).accepts (encode i) = true := by
  cases i with
  | unknown => exact absurd rfl h
  | cls | ret => decide
  | jmp | call | ldI | jmpV0 => exact TableRow.accepts_of_op (opOf_fmtNNN _ _) rfl rfl
  | seImm | sneImm | ldImm | addImm | rnd => exact TableRow.accepts_of_op (opOf_fmtXNN _ _ _) rfl rfl
  | seReg | sneReg | drw => exact TableRow.accepts_of_op (opOf_fmtXYN _ _ _ _) rfl rfl
  | ldReg | orReg | andReg | xorReg | addReg | subReg | shr | subn | shl =>
    exact TableRow.accepts_of_op_n (opOf_fmtXYN _ _ _ _) (nOf_fmtXYN _ _ _ _) rfl rfl
  | skp | sknp | ldVxDT | ldVxK | ldDTVx | ldSTVx | addI | ldF | ldB | store | load =>
    exact TableRow.accepts_of_op_nn (opOf_fmtXNN _ _ _) (nnOf_fmtXNN _ _ _) rfl rfl

/-- The mask of a row covers the fields by which R67 lists the unknown words of its family. -/
theorem opcodeRows_mask_covers : ∀ r ∈ opcodeRows, opOf r.mask = 0xF
    ∧ (opOf r.pattern = 0x0 → r.mask = 0xFFFF)
    ∧ (opOf r.pattern = 0x8 → nOf r.mask = 0xF)
    ∧ (opOf r.pattern = 0xE ∨ opOf r.pattern = 0xF → nnOf r.mask = 0xFF) := by decide

/-- No row's own pattern is an unknown word. -/
theorem opcodeRows_pattern_known : ∀ r ∈ opcodeRows, decode r.pattern ≠ .unknown r.pattern := by decide

/-- No row accepts an unknown word: the row's own pattern has the same listed fields, and is known. -/
theorem decode_ne_unknown_of_accepts {r : TableRow} {w : Word} (hr : r ∈ opcodeRows) (h : r.accepts w = true) :
    decode w ≠ .unknown w := by
  obtain ⟨mop, mword, mn, mnn⟩ := opcodeRows_mask_covers r hr
  have hop : opOf w = opOf r.pattern := TableRow.field_of_accepts h 12 4 mop
  have hword (h0 : opOf r.pattern = 0x0) : w = r.pattern := by
    rw [← (r.accepts_iff w).1 h, mword h0]; exact BitVec.and_allOnes.symm
  have hn (h8 : opOf r.pattern = 0x8) : nOf w = nOf r.pattern := TableRow.field_of_accepts h 0 4 (mn h8)
  have hnn (hEF : opOf r.pattern = 0xE ∨ opOf r.pattern = 0xF) : nnOf w = nnOf r.pattern :=
    TableRow.field_of_accepts h 0 8 (mnn hEF)
  rw [Ne, unknownWordsAreThoseListed w, hop]
  intro hlisted
  refine opcodeRows_pattern_known r hr ((unknownWordsAreThoseListed r.pattern).2 ?_)
  rcases hlisted with ⟨h0, hw⟩ | ⟨h8, hw⟩ | ⟨hE, hw⟩ | ⟨hF, hw⟩
  · exact .inl ⟨h0, hword h0 ▸ hw⟩
  · exact .inr (.inl ⟨h8, hn h8 ▸ hw⟩)
  · exact .inr (.inr (.inl ⟨hE, hnn (.inl hE) ▸ hw⟩))
  · exact .inr (.inr (.inr ⟨hF, hnn (.inr hF) ▸ hw⟩))

/-- The only entry with index 0 is the unknown one. -/
theorem eq_unknown_of_tableIndex {i : Instr} (h : tableIndex i = 0) : ∃ w, i = .unknown w := by
  cases i with
  | unknown w => exact ⟨w, rfl⟩
  | _ => simp [tableIndex] at h

/-- The decoder knows exactly the words that some row accepts. -/
theorem tableIndex_decode_ne_zero_iff (w : Word) :
    tableIndex (decode w) ≠ 0 ↔ ∃ r ∈ opcodeRows, r.accepts w = true := by
  constructor
  · intro h
    refine ⟨_, rowOf_mem (tableIndex (decode w)), ?_⟩
    simpa [encode_decode] using rowOf_accepts_encode h
  · rintro ⟨r, hr, h⟩ h0
    obtain ⟨v, hv⟩ := eq_unknown_of_tableIndex h0
    obtain rfl := eq_of_decode_eq_unknown hv
    exact decode_ne_unknown_of_accepts hr h hv

theorem tableIndex_decode_eq_index {r : TableRow} {w : Word} (hr : r ∈ opcodeRows) (h : r.accepts w = true) :
    (tableIndex (decode w)).val = r.index := by
  have hne := (tableIndex_decode_ne_zero_iff w).2 ⟨r, hr, h⟩
  have hrow := rowOf_accepts_encode hne
  rw [encode_decode] at hrow
  rw [opcodeRows_exclusive hr (rowOf_mem _) h hrow, rowOf_index _ hne]

theorem tableIndex_decode_eq_tableLookup (w : Word) : (tableIndex (decode w)).val = tableLookup w := by
  unfold tableLookup
  split
  case h_1 r hfind =>
    exact tableIndex_decode_eq_index (List.mem_of_find?_eq_some hfind)
      (List.find?_some (p := (TableRow.accepts · w)) hfind)
  case h_2 hfind =>
    rw [List.find?_eq_none] at hfind
    by_contra hne
    obtain ⟨r, hr, h⟩ := (tableIndex_decode_ne_zero_iff w).1 (by simpa using hne)
    exact hfind r hr h

/-- Settles O3: the row the table finds is the row of the decoded entry, since rows exclude each other. -/
theorem decoderAgreesWithTable : Obligations.DecoderAgreesWithTable := fun w =>
  ⟨tableIndex_decode_eq_tableLookup w, fun _ hr _ hq => opcodeRows_exclusive hr hq⟩

end Sys2Proof

/-! PROOFS. The statements of 40_flow.md: the no-op of an unknown word and a run of zeroed memory, returns and calls
with their faults, the jumps and the skips on registers. `instrStep_of_unknown` says once what a step that fetches an
unknown word does, and `run_of_zero_words` what any number of them do in zeroed memory. -/

namespace Sys2Proof.Machine

/-! ## The unknown word (R80) -/

/-- An unfaulted machine that fetches an unknown word is left as its fetch leaves it. -/
theorem instrStep_of_unknown {s : State} {w : Word} (hf : s.fault = none) (hw : s.fetchWord = some w)
    (hd : decode w = .unknown w) : instrStep s = .next (s.fetched w) := by
  have hsettle : s.settle (s.fetched w) = s.fetched w := State.settle_of_none hf
  simp [instrStep, hw, hd, exec, execUnknown, State.settleOutcome, hsettle]

/-- Settles O7: the unknown entry keeps the state, so the step is the fetch, whose frame is `IR`, `PC` and the
slot. -/
theorem unknownWordOnlyAdvances : Obligations.UnknownWordOnlyAdvances := by
  refine ⟨fun _ _ => rfl, rfl, fun w s hf hw hd => ?_⟩
  exact ⟨_, instrStep_of_unknown hf hw hd, rfl, rfl,
    (s.fetched_frame w).mono fun _ => or_left_comm.1⟩

/-! ## A run of zeroed memory (R80, R159, R215, R217) -/

/-- With a slot to run in, a step of an unfaulted machine is the step of one instruction. -/
theorem step_of_slot {s : State} (hf : s.fault = none) (hs : s.atSlot.slotsLeft ≠ 0) :
    step s = instrStep s.atSlot := by
  simp [step, runSlot, hf, hs]

/-- A step that cannot fetch raises the fetch fault (R159). -/
theorem step_of_fetchWord_none {s : State} (hf : s.fault = none) (hs : s.atSlot.slotsLeft ≠ 0)
    (hw : s.fetchWord = none) : step s = .next s.atSlot.raiseFetch := by
  simp [step_of_slot hf hs, instrStep, hw]

theorem core_run_succ {s t : State} (h : step s = .next t) (k : Nat) : core.run (k + 1) s = core.run k t := by
  have hstep : core.step s = .next t := h
  simp only [Host.Core.run, hstep]

/-- The pieces a step that fetches an unknown word may write: those of the fetch, and those of the head of a tick. -/
def NoOpParts (p : Part) : Prop :=
  p = .pc ∨ p = .ir ∨ p = .delay ∨ p = .sound ∨ p = .audio ∨ p = .keys ∨ p = .slots ∨ p = .tickNo

theorem State.atSlot_frame (s : State) :
    ChangesOnly (fun p => p = .delay ∨ p = .sound ∨ p = .audio ∨ p = .keys ∨ p = .slots ∨ p = .tickNo) s
      s.atSlot := by
  by_cases h : s.slotsLeft = 0
  · rw [State.atSlot_of_eq h]; exact s.openTick_frame _
  · rw [State.atSlot_of_ne h]; exact .refl _ s

theorem State.atSlot_fetched_frame (s : State) (w : Word) : ChangesOnly NoOpParts s (s.atSlot.fetched w) :=
  (s.atSlot_frame.mono (by simp [NoOpParts, or_imp, forall_and])).trans
    ((s.atSlot.fetched_frame w).mono (by simp [NoOpParts]))

/-- Two zero bytes are the word 0, which is unknown. -/
theorem step_of_zero_word {s : State} (hf : s.fault = none) (hipt : s.ipt ≠ 0) (hpc : s.pc.toNat ≤ 0x0FFE)
    (hhi : s.memRead s.pc.toNat = 0) (hlo : s.memRead (s.pc.toNat + 1) = 0) :
    step s = .next (s.atSlot.fetched 0) := by
  have hw : s.atSlot.fetchWord = some 0 := by
    rw [State.atSlot_fetchWord, State.fetchWord_of_le hpc, hhi, hlo]; rfl
  rw [step_of_slot hf (State.atSlot_slotsLeft_ne_zero (.inr hipt))]
  exact instrStep_of_unknown (by simpa using hf) hw rfl

/-- In memory that is 0 where `k` words are fetched, `k` steps advance `PC` by `2 * k` and write only what no-ops
write: the first is one, and it leaves the memory of the others as it was. -/
theorem run_of_zero_words (k : Nat) (s : State) (hf : s.fault = none) (hipt : s.ipt ≠ 0)
    (hpc : s.pc.toNat + 2 * k ≤ 0x1000)
    (hzero : ∀ a, s.pc.toNat ≤ a → a < s.pc.toNat + 2 * k → s.memRead a = 0) :
    ∃ t : State, core.run k s = .next t ∧ t.pc.toNat = s.pc.toNat + 2 * k ∧ (k ≠ 0 ∨ s.ir = 0 → t.ir = 0)
      ∧ t.mem = s.mem ∧ ChangesOnly NoOpParts s t := by
  induction k generalizing s with
  | zero => exact ⟨s, rfl, rfl, fun h => h.resolve_left (absurd rfl), rfl, .refl _ s⟩
  | succ k ih =>
    have hstep : step s = .next (s.atSlot.fetched 0) :=
      step_of_zero_word hf hipt (by omega) (hzero _ (by omega) (by omega)) (hzero _ (by omega) (by omega))
    have hnext : (s.atSlot.fetched 0).pc.toNat = s.pc.toNat + 2 := by
      simp only [State.fetched_pc, State.atSlot_pc]; bv_omega
    obtain ⟨t, hrun, htpc, htir, htmem, hframe⟩ := ih (s.atSlot.fetched 0) (by simpa using hf) (by simpa using hipt)
      (by omega) (fun a ha hk => by simpa using hzero a (by omega) (by omega))
    exact ⟨t, (core_run_succ hstep k).trans hrun, by omega, fun _ => htir (.inr rfl), by simpa using htmem,
      (s.atSlot_fetched_frame 0).trans hframe⟩

/-- Settles O8: the words up to 0x0FFE are no-ops, and the fetch at 0x1000 faults. -/
theorem zeroedMemoryRunsToItsEnd : Obligations.ZeroedMemoryRunsToItsEnd := by
  intro s hf hipt hpc heven hzero
  obtain ⟨t, hrun, htpc, htir, htmem, hframe⟩ :=
    run_of_zero_words ((0x1000 - s.pc.toNat) / 2) s hf hipt (by omega) (fun a ha hk => hzero a ha (by omega))
  have hend : t.pc = 0x1000 := by bv_omega
  have hir : t.ir = 0 := htir (.inl (by omega))
  have hkeeps (p : Part) (hp : ¬ NoOpParts p := by simp [NoOpParts]) : p.Same s t := hframe p hp
  have htf : t.fault = none := Eq.trans (hkeeps .fault) hf
  obtain ⟨-, htipt⟩ : t.font = s.font ∧ t.ipt = s.ipt := hkeeps .params
  refine ⟨t, hrun, htf, hend, hir, fun x => hkeeps (.reg x), hkeeps .index, hkeeps .stack, hkeeps .display, htmem,
    t.atSlot.raiseFetch, ?_, by simp [hend, hir]⟩
  exact step_of_fetchWord_none htf (State.atSlot_slotsLeft_ne_zero (.inr (htipt ▸ hipt)))
    (State.fetchWord_of_gt (by simp [hend]))

/-! ## Returns and calls (R81, R83) -/

/-- An execution that answers a raised fault raises it as R183 says. -/
theorem Raises.of_exec {i : Instr} {s : State} {c : Fault} {n : Nat} (h : exec i s = .next (s.raise c n)) :
    Raises i s c n :=
  ⟨_, h, rfl, rfl, s.raise_frame c n⟩

/-- The stack and `PC` written one after the other, in the order the statements name them. -/
theorem State.setStack_setPc_changes (s : State) (k : CallStack) (a : Word) :
    ChangesOnly (fun p => p = .pc ∨ p = .stack) s ((s.setStack k).setPc a) :=
  (s.setStack_setPc_frame k a).mono fun _ => Or.symm

/-- Settles O9: the two cases of a pop. -/
theorem retPopsOrUnderflows : Obligations.RetPopsOrUnderflows := by
  refine fun s => ⟨fun w => decode_eq_iff (i := .ret) rfl, ?_⟩
  rcases s.stack.pop_cases with ⟨hsp, hpop⟩ | ⟨hsp, a, k, hpop, hk, -, hentries, htop⟩
  · exact ⟨absurd hsp, fun _ => .of_exec (by simp [exec, execRet, hpop])⟩
  · have hsp' : k.sp = s.stack.sp - 1 := by omega
    exact ⟨fun _ => ⟨(s.setStack k).setPc a, by simp [exec, execRet, hpop], hsp' ▸ htop, hsp', hentries,
      s.setStack_setPc_changes k a⟩, fun hempty => absurd hempty hsp.ne'⟩

theorem toNat_addrOf (nnn : Addr12) : (addrOf nnn).toNat = nnn.toNat :=
  BitVec.toNat_setWidth_of_le (by decide)

/-- Settles O10: the two cases of a push. -/
theorem callPushesOrOverflows : Obligations.CallPushesOrOverflows := by
  refine fun nnn s => ⟨decode_encode (i := .call nnn) rfl, ?_⟩
  rcases s.stack.push_cases s.pc with ⟨hsp, hpush⟩ | ⟨hsp, k, hpush, hk, -, hentries⟩
  · exact ⟨absurd hsp, fun _ => .of_exec (by simp [exec, execCall, hpush])⟩
  · exact ⟨fun _ => ⟨(s.setStack k).setPc (addrOf nnn), by simp [exec, execCall, hpush], toNat_addrOf nnn, hk,
      hentries, s.setStack_setPc_changes k _⟩, fun hfull => absurd hfull hsp.ne⟩

/-! ## Jumps (R82, R89) -/

/-- The sum of a byte and a 12-bit address fits in 16 bits. -/
theorem toNat_wordOf_add_addrOf (b : Byte) (nnn : Addr12) :
    (wordOf b + addrOf nnn).toNat = b.toNat + nnn.toNat := by
  have := b.isLt; have := nnn.isLt
  simp only [wordOf, BitVec.toNat_add, toNat_addrOf, BitVec.toNat_setWidth]; omega

/-- Settles O12: both targets as natural numbers, and the frame of a write of `PC`. -/
theorem jumpsSetPc : Obligations.JumpsSetPc := fun nnn s =>
  ⟨decode_encode (i := .jmp nnn) rfl, decode_encode (i := .jmpV0 nnn) rfl,
    ⟨_, rfl, toNat_addrOf nnn, s.setPc_frame _⟩, ⟨_, rfl, toNat_wordOf_add_addrOf _ nnn, s.setPc_frame _⟩⟩

/-! ## Skips on registers and immediates (R84 to R88) -/

theorem State.skipIf_beq_pc (s : State) (a b : Byte) :
    (s.skipIf (a == b)).pc = if a = b then s.pc + 2 else s.pc := by simp

theorem State.skipIf_bne_pc (s : State) (a b : Byte) :
    (s.skipIf (a != b)).pc = if a = b then s.pc else s.pc + 2 := by simp

/-- Settles O13: each is a conditional skip, on equal or on unequal operands, and writes `PC` alone. -/
theorem skipsCompareRegisters : Obligations.SkipsCompareRegisters := fun x y k nn s =>
  ⟨decode_encode (i := .seImm x nn) rfl, decode_encode (i := .sneImm x nn) rfl,
    decode_encode (i := .seReg x y k) rfl, decode_encode (i := .sneReg x y k) rfl,
    ⟨_, rfl, s.skipIf_beq_pc _ _, s.setPc_frame _⟩, ⟨_, rfl, s.skipIf_bne_pc _ _, s.setPc_frame _⟩,
    ⟨_, rfl, s.skipIf_beq_pc _ _, s.setPc_frame _⟩, ⟨_, rfl, s.skipIf_bne_pc _ _, s.setPc_frame _⟩⟩

end Sys2Proof.Machine

/-! PROOFS. The statements of 41_alu.md. `State.reg_setFlagged_of_ne` and `State.reg_setFlagged_vf` say what a result
and its flag leave in their two registers; the results and the flags as natural numbers stand beside them, and one
register as both operands is an instance of the general statements. -/

namespace Sys2Proof.Machine

/-! ## The loads, the immediate add and the logical operations (R100 to R105) -/

/-- Settles O14: each is one write of a register, and its frame is that register. -/
theorem loadsAndLogicWriteOnlyVx : Obligations.LoadsAndLogicWriteOnlyVx := fun x y nn s =>
  ⟨decode_encode (i := .ldImm x nn) rfl, decode_encode (i := .addImm x nn) rfl,
    decode_encode (i := .ldReg x y) rfl, decode_encode (i := .orReg x y) rfl,
    decode_encode (i := .andReg x y) rfl, decode_encode (i := .xorReg x y) rfl,
    ⟨_, rfl, s.reg_setReg_same x _, s.setReg_frame x _⟩,
    ⟨_, rfl, by rw [State.reg_setReg_same, BitVec.toNat_add], s.setReg_frame x _⟩,
    ⟨_, rfl, s.reg_setReg_same x _, s.setReg_frame x _⟩, ⟨_, rfl, s.reg_setReg_same x _, s.setReg_frame x _⟩,
    ⟨_, rfl, s.reg_setReg_same x _, s.setReg_frame x _⟩, ⟨_, rfl, s.reg_setReg_same x _, s.setReg_frame x _⟩⟩

/-! ## A result and its flag (10_state.md R14, R99) -/

/-- The flag is written last, so it stays whatever the destination. -/
@[simp] theorem State.reg_setFlagged_vf (s : State) (x : Nibble) (r : Byte) (f : Bool) :
    (s.setFlagged x r f).reg vf = flagByte f := by
  simp [State.reg_setFlagged]

theorem State.reg_setFlagged_of_ne (s : State) {x : Nibble} (hx : x ≠ vf) (r : Byte) (f : Bool) :
    (s.setFlagged x r f).reg x = r := by
  simp [State.reg_setFlagged, hx]

theorem toNat_flagByte (f : Bool) : (flagByte f).toNat = f.toNat := by cases f <;> rfl

theorem flagByte_decide (p : Prop) [Decidable p] : flagByte (decide p) = if p then 1 else 0 := by
  simp [flagByte]

/-! ## The results and the bits shifted out as natural numbers (R107 to R110) -/

theorem toNat_sub_byte (a b : Byte) : (a - b).toNat = (a.toNat + 256 - b.toNat) % 256 := by
  have := b.isLt
  rw [BitVec.toNat_sub]; omega

theorem toNat_ushiftRight_one (b : Byte) : (b >>> 1).toNat = b.toNat / 2 := by
  rw [BitVec.toNat_ushiftRight, Nat.shiftRight_one]

theorem toNat_shiftLeft_one (b : Byte) : (b <<< 1).toNat = b.toNat * 2 % 256 := by
  rw [BitVec.toNat_shiftLeft, Nat.shiftLeft_eq]

theorem toNat_flagByte_lowBit (b : Byte) : (flagByte (lowBit b)).toNat = b.toNat % 2 := by
  rw [toNat_flagByte, lowBit, BitVec.getLsbD, Nat.toNat_testBit, pow_zero, Nat.div_one]

theorem toNat_flagByte_highBit (b : Byte) : (flagByte (highBit b)).toNat = b.toNat / 128 := by
  have := b.isLt
  rw [toNat_flagByte, highBit, BitVec.getLsbD, Nat.toNat_testBit]; omega

/-! ## The operations that write a flag (R106 to R110) -/

/-- Settles O15: the sum wraps, and the carry is written after it. -/
theorem addSetsCarry : Obligations.AddSetsCarry := fun x y s =>
  ⟨decode_encode (i := .addReg x y) rfl, _, rfl,
    fun hx => by rw [s.reg_setFlagged_of_ne hx, BitVec.toNat_add],
    by rw [State.reg_setFlagged_vf, carryOf, flagByte_decide], s.setFlagged_frame x _ _⟩

/-- The result and the flag of a subtraction of `b` from `a` (R107, R109). -/
theorem State.setFlagged_sub (s : State) (x : Nibble) (a b : Byte) :
    (x ≠ vf → ((s.setFlagged x (a - b) (noBorrow a b)).reg x).toNat = (a.toNat + 256 - b.toNat) % 256)
    ∧ (s.setFlagged x (a - b) (noBorrow a b)).reg vf = (if b.toNat ≤ a.toNat then 1 else 0)
    ∧ ChangesOnly (fun p => p = .reg x ∨ p = .reg vf) s (s.setFlagged x (a - b) (noBorrow a b)) :=
  ⟨fun hx => by rw [s.reg_setFlagged_of_ne hx, toNat_sub_byte],
    by rw [State.reg_setFlagged_vf, noBorrow, flagByte_decide], s.setFlagged_frame x _ _⟩

/-- Settles O16: the two subtractions are one with the operands exchanged. -/
theorem subtractionsSetNoBorrow : Obligations.SubtractionsSetNoBorrow := fun x y s =>
  ⟨decode_encode (i := .subReg x y) rfl, decode_encode (i := .subn x y) rfl,
    ⟨_, rfl, s.setFlagged_sub x (s.reg x) (s.reg y)⟩, ⟨_, rfl, s.setFlagged_sub x (s.reg y) (s.reg x)⟩⟩

/-- Settles O17: half or twice the source, and the bit that falls out. -/
theorem shiftsTakeVy : Obligations.ShiftsTakeVy := fun x y s =>
  ⟨decode_encode (i := .shr x y) rfl, decode_encode (i := .shl x y) rfl,
    ⟨_, rfl, fun hx => by rw [s.reg_setFlagged_of_ne hx, toNat_ushiftRight_one],
      by rw [State.reg_setFlagged_vf, toNat_flagByte_lowBit], s.setFlagged_frame x _ _⟩,
    ⟨_, rfl, fun hx => by rw [s.reg_setFlagged_of_ne hx, toNat_shiftLeft_one],
      by rw [State.reg_setFlagged_vf, toNat_flagByte_highBit], s.setFlagged_frame x _ _⟩⟩

/-! ## One register as both operands (R112) -/

/-- The carry of a byte added to itself is its bit 7. -/
theorem toNat_carry_self (a : Byte) : (if 255 < a.toNat + a.toNat then 1 else 0 : Byte).toNat = a.toNat / 128 := by
  have := a.isLt
  split <;> simp <;> omega

/-- A byte less itself is 0. -/
theorem eq_zero_of_toNat_sub_self {a r : Byte} (h : r.toNat = (a.toNat + 256 - a.toNat) % 256) : r = 0 := by
  apply BitVec.eq_of_toNat_eq
  rw [h, Nat.add_sub_cancel_left]; rfl

/-- Settles O18: the statements for two registers, at one. -/
theorem sameRegisterOperands : Obligations.SameRegisterOperands := by
  intro x s
  obtain ⟨-, -, -, -, -, -, -, -, -, ⟨t1, hor, hor_x, -⟩, ⟨t2, hand, hand_x, -⟩, t3, hxor, hxor_x, -⟩ :=
    loadsAndLogicWriteOnlyVx x x 0 s
  obtain ⟨-, t4, hadd, hadd_x, hadd_vf, -⟩ := addSetsCarry x x s
  obtain ⟨-, -, ⟨t5, hsub, hsub_x, hsub_vf, -⟩, t6, hsubn, hsubn_x, hsubn_vf, -⟩ := subtractionsSetNoBorrow x x s
  obtain ⟨-, -, ⟨t7, hshr, hshr_x, hshr_vf, -⟩, t8, hshl, hshl_x, hshl_vf, -⟩ := shiftsTakeVy x x s
  refine ⟨⟨t1, hor, hor_x.trans BitVec.or_self⟩, ⟨t2, hand, hand_x.trans BitVec.and_self⟩,
    ⟨t3, hxor, hxor_x.trans BitVec.xor_self⟩, ⟨t4, hadd, fun hx => ?_, ?_⟩,
    ⟨t5, hsub, fun hx => eq_zero_of_toNat_sub_self (hsub_x hx), ?_⟩,
    ⟨t6, hsubn, fun hx => eq_zero_of_toNat_sub_self (hsubn_x hx), ?_⟩,
    ⟨t7, hshr, hshr_x, hshr_vf⟩, ⟨t8, hshl, fun hx => ?_, hshl_vf⟩⟩
  · rw [hadd_x hx, two_mul]
  · rw [hadd_vf, toNat_carry_self]
  · rw [hsub_vf, if_pos le_rfl]
  · rw [hsubn_vf, if_pos le_rfl]
  · rw [hshl_x hx, mul_comm]

/-! ## The random byte (R111, 45_engine.md R154) -/

@[simp] theorem State.reg_rndWith_same (s : State) (x : Nibble) (nn r : Byte) :
    (s.rndWith x nn r).reg x = r &&& nn :=
  s.drawRnd.reg_setReg_same x (r &&& nn)

/-- Settles O19: one byte is drawn, and the destination is written with its masked value. -/
theorem rndMasksTheDraw : Obligations.RndMasksTheDraw := fun x nn s =>
  ⟨decode_encode (i := .rnd x nn) rfl, _, rfl, s.reg_rndWith_same x nn _, s.rndWith_rndNo x nn _,
    (s.rndWith_frame x nn _).mono fun _ => Or.symm⟩

end Sys2Proof.Machine

/-! PROOFS. The statements of 42_index_memory.md: the writes of I; FX33, FX55 and FX65, which share the range check
`State.checked_of_fits` and `Raises.of_access`; and that an instruction that raises has written nothing else. -/

namespace Sys2Proof.Machine

/-! ## The writes of I (R120 to R122) -/

theorem toNat_wordOf (b : Byte) : (wordOf b).toNat = b.toNat :=
  BitVec.toNat_setWidth_of_le (by decide)

theorem toNat_add_wordOf (w : Word) (b : Byte) : (w + wordOf b).toNat = (w.toNat + b.toNat) % 65536 := by
  rw [BitVec.toNat_add, toNat_wordOf]

/-- Five times a byte fits in 16 bits. -/
theorem toNat_glyphAddr (b : Byte) : (glyphAddr b).toNat = b.toNat * 5 := by
  have hfive : (BitVec.ofNat 16 Config.glyphBytes).toNat = 5 := rfl
  have := b.isLt
  rw [glyphAddr, BitVec.toNat_mul, toNat_wordOf, hfive, Nat.mod_eq_of_lt (by omega)]

/-- Settles O20: each is one write of `I`, and its frame is `I`. -/
theorem indexWritesAreUnmasked : Obligations.IndexWritesAreUnmasked := fun x nnn s =>
  ⟨decode_encode (i := .ldI nnn) rfl, decode_encode (i := .addI x) rfl, decode_encode (i := .ldF x) rfl,
    ⟨_, rfl, toNat_addrOf nnn, s.setIndex_frame _⟩, ⟨_, rfl, toNat_add_wordOf _ _, s.setIndex_frame _⟩,
    ⟨_, rfl, toNat_glyphAddr _, s.setIndex_frame _⟩⟩

/-! ## The range check of an access (R119) -/

/-- An access that fits takes its effect. -/
theorem State.checked_of_fits {s : State} {k : Nat} (h : s.effAddr k ≤ 0x0FFF) (c : Fault) (n : Nat) (t : State) :
    s.checked (s.accessFits k) c n t = .next t := by
  rw [(s.accessFits_eq_true k).2 h, State.checked_true]

/-- An access that leaves memory raises its fault, with the highest address of the access. -/
theorem Raises.of_access {i : Instr} {s t : State} {k : Nat}
    (hi : exec i s = s.checked (s.accessFits k) .memOutOfRange (s.effAddr k) t) (h : 0x0FFF < s.effAddr k) :
    Raises i s .memOutOfRange (s.effAddr k) :=
  .of_exec (by rw [hi, (s.accessFits_eq_false k).2 h, State.checked_false])

/-- The post-increment of FX55 and FX65 as a natural number. -/
theorem State.toNat_advanceIndex_i (s : State) (n : Nat) :
    (s.advanceIndex n).i.toNat = (s.i.toNat + n) % 65536 := by
  rw [State.advanceIndex_i, BitVec.toNat_add, BitVec.toNat_ofNat, Nat.add_mod_mod]

/-! ## The decimal digits (R123) -/

theorem toNat_hundredsOf (b : Byte) : (hundredsOf b).toNat = b.toNat / 100 :=
  Nat.mod_eq_of_lt (by have := b.isLt; omega)

theorem toNat_tensOf (b : Byte) : (tensOf b).toNat = b.toNat / 10 % 10 :=
  Nat.mod_eq_of_lt (by omega)

theorem toNat_onesOf (b : Byte) : (onesOf b).toNat = b.toNat % 10 :=
  Nat.mod_eq_of_lt (by omega)

/-- Byte `k` of a sequence written from `a` on is at `a + k`. -/
theorem State.memRead_memWriteList_add (s : State) (a : Nat) {l : List Byte} {k : Nat} {b : Byte}
    (h : l[k]? = some b) : (s.memWriteList a l).memRead (a + k) = b := by
  obtain ⟨hk, rfl⟩ := List.getElem?_eq_some_iff.1 h
  rw [State.memRead_memWriteList, if_pos (by omega), Nat.add_sub_cancel_left, List.getD_eq_getElem]

/-- A sequence of three bytes written from `I` on changes the bytes `I`, `I + 1` and `I + 2` alone. -/
theorem State.memWriteList_three_frame (s : State) (b c d : Byte) :
    ChangesOnly (fun p => p = .byte (s.effAddr 0) ∨ p = .byte (s.effAddr 1) ∨ p = .byte (s.effAddr 2)) s
      (s.memWriteList (s.effAddr 0) [b, c, d]) := by
  refine (s.memWriteList_frame (s.effAddr 0) [b, c, d]).mono ?_
  rintro _ ⟨a, rfl, hlow, hhigh⟩
  simp only [Part.byte.injEq, State.effAddr, List.length_cons, List.length_nil] at *
  omega

/-- Settles O21: the digits of `V[X]` are a sequence of three bytes written from `I` on. -/
theorem bcdStoresDigits : Obligations.BcdStoresDigits := fun x s =>
  ⟨decode_encode (i := .ldB x) rfl,
    fun h => ⟨_, State.checked_of_fits h _ _ _,
      (congrArg BitVec.toNat (s.memRead_memWriteList_add _ (k := 0) rfl)).trans (toNat_hundredsOf _),
      (congrArg BitVec.toNat (s.memRead_memWriteList_add _ (k := 1) rfl)).trans (toNat_tensOf _),
      (congrArg BitVec.toNat (s.memRead_memWriteList_add _ (k := 2) rfl)).trans (toNat_onesOf _),
      s.memWriteList_three_frame _ _ _⟩,
    Raises.of_access rfl⟩

/-! ## Storing and loading registers (R124, R125) -/

/-- A completed FX55 changes `I` and the bytes of its access. -/
theorem State.storeRegs_advanceIndex_changes (s : State) (n : Nat) :
    ChangesOnly (fun p => p = .index ∨ ∃ k ≤ n, p = .byte (s.effAddr k)) s
      ((s.storeRegs (n + 1)).advanceIndex (n + 1)) := by
  refine ((s.storeRegs_frame (n + 1)).mono ?_).trans (((s.storeRegs (n + 1)).setIndex_frame _).mono fun _ => .inl)
  rintro _ ⟨a, rfl, hlow, hhigh⟩
  exact .inr ⟨a - s.i.toNat, by omega, by rw [State.effAddr, Nat.add_sub_cancel' hlow]⟩

/-- Settles O22: the stored registers are read back at their addresses, and the frame is theirs with `I`. -/
theorem storeCopiesRegisters : Obligations.StoreCopiesRegisters := by
  refine fun x s => ⟨decode_encode (i := .store x) rfl, fun h => ⟨_, exec_store_of_fits h, fun k hk => ?_, ?_,
    s.storeRegs_advanceIndex_changes x.toNat⟩, Raises.of_access rfl⟩
  · exact s.memRead_storeRegs_effAddr (Nat.lt_succ_of_le hk)
  · rw [State.toNat_advanceIndex_i, State.storeRegs_i, Nat.add_assoc]

/-- A register loaded by FX65 holds what its address reads as. -/
theorem State.reg_loadRegs_effAddr (s : State) {x y : Nibble} (h : y ≤ x) :
    (s.loadRegs (x.toNat + 1)).reg y = s.memRead (s.effAddr y.toNat) := by
  rw [s.reg_loadRegs x.isLt, if_pos (Nat.lt_succ_of_le h)]

/-- An FX65 whose access fits loads the registers and advances `I` (R125). -/
theorem exec_load_of_fits {x : Nibble} {s : State} (h : s.effAddr x.toNat ≤ 0x0FFF) :
    exec (.load x) s = .next ((s.loadRegs (x.toNat + 1)).advanceIndex (x.toNat + 1)) :=
  State.checked_of_fits h _ _ _

/-- A completed FX65 changes `I` and the registers up to its last. -/
theorem State.loadRegs_advanceIndex_changes (s : State) (x : Nibble) :
    ChangesOnly (fun p => p = .index ∨ ∃ y : Nibble, y ≤ x ∧ p = .reg y) s
      ((s.loadRegs (x.toNat + 1)).advanceIndex (x.toNat + 1)) := by
  refine ((s.loadRegs_frame x.isLt).mono ?_).trans
    (((s.loadRegs (x.toNat + 1)).setIndex_frame _).mono fun _ => .inl)
  rintro _ ⟨y, rfl, hy⟩
  exact .inr ⟨y, Nat.le_of_lt_succ hy, rfl⟩

/-- Settles O23: the loaded registers hold the bytes of the access, and the frame is theirs with `I`. -/
theorem loadCopiesMemory : Obligations.LoadCopiesMemory := by
  refine fun x s => ⟨decode_encode (i := .load x) rfl, fun h => ⟨_, exec_load_of_fits h, fun k hk => ?_, ?_,
    s.loadRegs_advanceIndex_changes x⟩, Raises.of_access rfl⟩
  · have hk4 : (BitVec.ofNat 4 k).toNat = k := Nat.mod_eq_of_lt (hk.trans_lt x.isLt)
    have hle : BitVec.ofNat 4 k ≤ x := by rwa [BitVec.le_def, hk4]
    rw [State.advanceIndex_reg, s.reg_loadRegs_effAddr hle, hk4]
  · rw [State.toNat_advanceIndex_i, State.loadRegs_i, Nat.add_assoc]

/-- Settles O24: FX65 reads the addresses FX55 wrote, and both add the same to the same `I`. -/
theorem storeThenLoadRestores : Obligations.StoreThenLoadRestores := by
  refine fun x s v h => ⟨_, _, exec_store_of_fits h, exec_load_of_fits h, fun y hy => ?_, by simp, by simp⟩
  calc
    _ = (s.storeRegs (x.toNat + 1)).memRead (s.effAddr y.toNat) := State.reg_loadRegs_effAddr _ hy
    _ = s.reg (BitVec.ofNat 4 y.toNat) := s.memRead_storeRegs_effAddr (Nat.lt_succ_of_le hy)
    _ = s.reg y := by rw [BitVec.ofNat_toNat, BitVec.setWidth_eq]

/-! ## Instructions that raise (R119, R181, R183) -/

/-- Settles O41: an instruction that completes keeps the record, so one that leaves a fault in it raised it. -/
theorem raisingInstructionsWriteNothing : Obligations.RaisingInstructionsWriteNothing := by
  intro i s t hs h ht
  rcases exec_answer i s with ⟨c, n, hr, hi⟩ | ⟨u, hu, hframe⟩
  · obtain rfl := Host.Outcome.next.inj (h.symm.trans hr)
    exact ⟨s.raise_frame c n, hi⟩
  · obtain rfl := Host.Outcome.next.inj (h.symm.trans hu)
    have hkeep : t.fault = s.fault := hframe .fault fun ⟨_, hne, _⟩ => hne rfl
    exact absurd (hkeep.trans hs) ht

end Sys2Proof.Machine

/-! PROOFS. The statements of 43_display.md. `State.drawn_pixel` and `State.drawn_hit` say once what a draw does to
a pixel and to the collision flag, in the terms of `SpriteSets`; the second of two equal draws is the first statement
again, in the state the first draw leaves. -/

namespace Sys2Proof.Machine

/-! ## Clearing (R130) -/

/-- Settles O27: the display is replaced by the clear one, and nothing else is written. -/
theorem clsClearsEveryPixel : Obligations.ClsClearsEveryPixel := fun s =>
  ⟨fun _ => decode_eq_iff (i := .cls) rfl, _, rfl, fun y x _ _ => Display.pixel_clear y x, s.setDisplay_frame _⟩

/-! ## What a draw does to a pixel and to the flag (R131 to R133) -/

/-- The pixels of a sprite as the statements name them are those the laws of the blitter name. -/
theorem spriteSets_iff_spriteHits (s : State) (x y n : Nibble) (py px : Nat) :
    SpriteSets s x y n py px ↔ spriteHits (fun r => s.memRead (s.effAddr r)) (startCol (s.reg x))
      (startRow (s.reg y)) 0 n.toNat py px = true := by
  simp [SpriteSets, spriteHits, rowHits, startCol, startRow, and_assoc]

/-- A draw changes exactly the pixels the sprite sets. -/
theorem State.drawn_pixel (s : State) (x y n : Nibble) (py px : Nat) :
    Display.pixel (s.drawn x y n.toNat).disp py px ≠ Display.pixel s.disp py px ↔ SpriteSets s x y n py px := by
  rw [spriteSets_iff_spriteHits, State.drawn, Canvas.drawRows_pixel]
  cases Display.pixel s.disp py px <;> simp

/-- A draw reports a collision exactly when a pixel the sprite sets was lit. -/
theorem State.drawn_hit (s : State) (x y n : Nibble) :
    (s.drawn x y n.toNat).hit = true
      ↔ ∃ py px, SpriteSets s x y n py px ∧ Display.pixel s.disp py px = true := by
  simp [State.drawn, Canvas.drawRows_hit, spriteSets_iff_spriteHits]

theorem flagByte_eq_one_iff (f : Bool) : flagByte f = 1 ↔ f = true := by cases f <;> simp [flagByte]

/-! ## The draw and its range check (R119, R131, R135) -/

/-- A draw whose sprite fits in memory writes the display and then the flag. -/
theorem exec_drw_of_fits (x y : Nibble) {n : Nibble} {s : State}
    (h : n = 0 ∨ s.effAddr (n.toNat - 1) ≤ 0x0FFF) :
    exec (.drw x y n) s = .next ((s.setDisplay (s.drawn x y n.toNat).disp).setReg vf
      (flagByte (s.drawn x y n.toNat).hit)) := by
  have hfits : s.spriteFits n.toNat = true :=
    (s.spriteFits_eq_true _).2 (h.imp_left (congrArg BitVec.toNat))
  rw [exec, execDrw, hfits, State.checked_true]

/-- A draw whose sprite leaves memory raises its fault, with the address of its last byte. -/
theorem exec_drw_of_not_fits (x y : Nibble) {n : Nibble} {s : State} (hn : n ≠ 0)
    (h : 0x0FFF < s.effAddr (n.toNat - 1)) :
    exec (.drw x y n) s = .next (s.raise .memOutOfRange (s.effAddr (n.toNat - 1))) := by
  have hfits : s.spriteFits n.toNat = false :=
    (s.spriteFits_eq_false _).2 ⟨fun h0 => hn (BitVec.eq_of_toNat_eq h0), h⟩
  rw [exec, execDrw, hfits, State.checked_false]

/-- Settles O28: the pixels and the flag by the two laws of a draw, the rest by its frame. -/
theorem drawTogglesTheSprite : Obligations.DrawTogglesTheSprite := fun x y n s =>
  ⟨decode_encode (i := .drw x y n) rfl,
    fun h => ⟨_, exec_drw_of_fits x y h, fun py px _ _ => s.drawn_pixel x y n py px,
      by rw [State.reg_setReg_same]; exact (flagByte_zero_or_one _).symm,
      by rw [State.reg_setReg_same, flagByte_eq_one_iff, State.drawn_hit],
      s.setDisplay_setReg_frame _ _ _⟩,
    fun ⟨hn, h⟩ => .of_exec (exec_drw_of_not_fits x y hn h)⟩

/-! ## The same draw twice (R135) -/

/-- A pixel that changes the second time exactly if it changed the first is back where it was. -/
theorem eq_of_ne_iff_ne : ∀ {a b c : Bool}, (c ≠ b ↔ b ≠ a) → c = a := by decide

/-- Where only the display and VF changed, a sprite at registers other than VF sets the same pixels: `I`, the bytes
and the start position are as before. -/
theorem ChangesOnly.spriteSets_iff {s t : State} (h : ChangesOnly (fun p => p = .display ∨ p = .reg vf) s t)
    {x y : Nibble} (hx : x ≠ vf) (hy : y ≠ vf) (n : Nibble) (py px : Nat) :
    SpriteSets t x y n py px ↔ SpriteSets s x y n py px := by
  have hregx : t.reg x = s.reg x := h (.reg x) (by simp [hx])
  have hregy : t.reg y = s.reg y := h (.reg y) (by simp [hy])
  have hi : t.i = s.i := h .index (by simp)
  have hmem (a : Nat) : t.memRead a = s.memRead a := h (.byte a) (by simp)
  simp only [SpriteSets, State.effAddr, hregx, hregy, hi, hmem]

/-- Settles O29: both draws change the pixels of one sprite, so a pixel changes twice or never; from a dark display
the first lights those pixels, and the second finds them lit. -/
theorem drawTwiceRestores : Obligations.DrawTwiceRestores := by
  intro x y n s hx hy hfits
  obtain ⟨-, hdraw, -⟩ := drawTogglesTheSprite x y n s
  obtain ⟨t, ht, htpixel, htflag, htvf, hframe⟩ := hdraw hfits
  have hi : t.i = s.i := hframe .index (by simp)
  obtain ⟨-, hdraw', -⟩ := drawTogglesTheSprite x y n t
  obtain ⟨u, hu, hupixel, -, huvf, -⟩ := hdraw' (by rwa [State.effAddr, hi])
  have hsame := hframe.spriteSets_iff hx hy n
  refine ⟨t, u, ht, hu, Display.ext_pixel fun py px hpy hpx => ?_, fun hdark => ⟨?_, ?_⟩⟩
  · exact eq_of_ne_iff_ne (((hupixel py px hpy hpx).trans (hsame py px)).trans (htpixel py px hpy hpx).symm)
  · refine htflag.resolve_left fun hone => ?_
    obtain ⟨py, px, -, hlit⟩ := htvf.1 hone
    simp [hdark] at hlit
  · have hlit {py px : Nat} (hset : SpriteSets s x y n py px) : Display.pixel t.disp py px = true := by
      have ⟨_, _, hpy, _, _, hpx, _⟩ := hset
      simpa [hdark] using (htpixel py px hpy hpx).2 hset
    rw [huvf]
    exact exists₂_congr fun py px => (and_congr_left' (hsame py px)).trans (and_iff_left_of_imp hlit)

end Sys2Proof.Machine

/-! PROOFS. The statements of 44_keypad_timer.md. `State.reg_keyWaitWith`, `State.keyWaitWith_pc` and
`State.keyWaitWith_kwNo` say once what one key-wait sample does, and `toNat_tickHeads` what the heads of any number
of ticks leave of a timer. -/

namespace Sys2Proof.Machine

/-! ## The key skips (R140, R141) -/

/-- A check whose condition holds lets the effect through. -/
theorem State.checked_of_decide {p : Prop} [Decidable p] (h : p) (s : State) (c : Fault) (n : Nat) (t : State) :
    s.checked (decide p) c n t = .next t := by
  rw [decide_eq_true h, State.checked_true]

/-- An instruction whose checked condition fails raises its fault. -/
theorem Raises.of_decide {i : Instr} {s t : State} {p : Prop} [Decidable p] {c : Fault} {n : Nat}
    (hi : exec i s = s.checked (decide p) c n t) (h : ¬ p) : Raises i s c n :=
  .of_exec (by rw [hi, decide_eq_false h, State.checked_false])

theorem State.skipIf_keyHeld_pc (s : State) (k : Nat) :
    (s.skipIf (s.keyHeld k)).pc = if s.keys.getLsbD k = true then s.pc + 2 else s.pc := rfl

theorem State.skipIf_not_keyHeld_pc (s : State) (k : Nat) :
    (s.skipIf (!s.keyHeld k)).pc = if s.keys.getLsbD k = true then s.pc else s.pc + 2 := by
  cases h : s.keys.getLsbD k <;> simp [State.keyHeld, h]

/-- Settles O30: the check of the index is the condition of both clauses, and a key skip writes `PC` alone. -/
theorem keySkipsReadTheSnapshot : Obligations.KeySkipsReadTheSnapshot := fun x s =>
  ⟨decode_encode (i := .skp x) rfl, decode_encode (i := .sknp x) rfl,
    fun h => ⟨⟨_, State.checked_of_decide h _ _ _ _, s.skipIf_keyHeld_pc _, s.setPc_frame _⟩,
      ⟨_, State.checked_of_decide h _ _ _ _, s.skipIf_not_keyHeld_pc _, s.setPc_frame _⟩⟩,
    fun h => ⟨.of_decide rfl h.not_ge, .of_decide rfl h.not_ge⟩⟩

/-! ## The timer moves (R142 to R144) -/

/-- Settles O31: each is one write of its destination, and its frame is that destination. -/
theorem timerMovesCopy : Obligations.TimerMovesCopy := fun x s =>
  ⟨decode_encode (i := .ldVxDT x) rfl, decode_encode (i := .ldDTVx x) rfl, decode_encode (i := .ldSTVx x) rfl,
    ⟨_, rfl, s.reg_setReg_same x _, s.setReg_frame x _⟩, ⟨_, rfl, rfl, s.setDelay_frame _⟩,
    ⟨_, rfl, rfl, s.setSound_frame _⟩⟩

/-! ## The heads of any number of ticks (R143, R144, R155, R157) -/

/-- The head of the last tick comes after those of the others. -/
theorem tickHeads_concat (ks : List (BitVec 16)) (k : BitVec 16) (s : State) :
    tickHeads (ks ++ [k]) s = (tickHeads ks s).openTick k := List.foldl_concat ..

/-- A timer that every head ticks is down by the number of heads, and stops at 0. -/
theorem toNat_tickHeads {timer : State → Byte} (htick : ∀ s k, timer (s.openTick k) = timerTick (timer s))
    (ks : List (BitVec 16)) (s : State) : (timer (tickHeads ks s)).toNat = (timer s).toNat - ks.length := by
  induction ks using List.reverseRecOn with
  | nil => rfl
  | append_singleton ks k ih =>
    rw [tickHeads_concat, htick, toNat_timerTick, ih, List.length_append, List.length_singleton, Nat.sub_sub]

/-- The last of one or more heads drives the trigger with whether `ST` is still nonzero. -/
theorem tickHeads_audio {ks : List (BitVec 16)} (hks : ks ≠ []) (s : State) :
    (tickHeads ks s).audio = ((tickHeads ks s).st != 0) := by
  obtain ⟨ks, k, rfl⟩ := (List.eq_nil_or_concat' ks).resolve_left hks
  rw [tickHeads_concat]; rfl

/-- The trigger is driven 1 by the last head exactly while the heads are fewer than the value `ST` had. -/
theorem tickHeads_audio_iff {ks : List (BitVec 16)} (hks : ks ≠ []) (s : State) :
    (tickHeads ks s).audio = true ↔ ks.length < s.st.toNat := by
  have hst : (tickHeads ks s).st.toNat = s.st.toNat - ks.length := toNat_tickHeads State.openTick_st ks s
  rw [tickHeads_audio hks, bne_iff_ne, ne_eq, ← BitVec.toNat_inj, hst, ← Nat.sub_pos_iff_lt]
  exact Nat.pos_iff_ne_zero.symm

/-- Settles O32: the write puts `V[X]` into the timer, and the heads run it down from there. -/
theorem writtenTimersRunDown : Obligations.WrittenTimersRunDown := fun x s ks =>
  ⟨⟨_, rfl, toNat_tickHeads State.openTick_dt ks (s.setDelay (s.reg x))⟩,
    ⟨_, rfl, rfl, toNat_tickHeads State.openTick_st ks (s.setSound (s.reg x)),
      fun hks => tickHeads_audio_iff hks (s.setSound (s.reg x))⟩⟩

/-! ## The key wait (R145, R146) -/

/-- A valid sample's key goes to `V[X]`; no other register is written, and none by a sample that is not valid. -/
theorem State.reg_keyWaitWith (s : State) (x : Nibble) (k : Config.KeySample) (y : Nibble) :
    (s.keyWaitWith x k).reg y = if k.valid ∧ y = x then k.key.setWidth 8 else s.reg y := by
  cases h : k.valid <;> simp [State.keyWaitWith, h, State.reg_setReg]

@[simp] theorem State.keyWaitWith_pc (s : State) (x : Nibble) (k : Config.KeySample) :
    (s.keyWaitWith x k).pc = if k.valid then s.pc else s.pc - 2 := by
  unfold State.keyWaitWith; split <;> rfl

@[simp] theorem State.keyWaitWith_kwNo (s : State) (x : Nibble) (k : Config.KeySample) :
    (s.keyWaitWith x k).kwNo = s.kwNo + 1 := by
  unfold State.keyWaitWith; split <;> rfl

/-- The key of a sample keeps its value in the byte of `V[X]`. -/
theorem State.toNat_reg_keyWaitWith (s : State) (x : Nibble) (k : Config.KeySample) :
    ((s.keyWaitWith x k).reg x).toNat = if k.valid then k.key.toNat else (s.reg x).toNat := by
  have hkey : (k.key.setWidth 8).toNat = k.key.toNat := BitVec.toNat_setWidth_of_le (by decide)
  rw [State.reg_keyWaitWith]
  cases k.valid <;> simp [hkey]

/-- Settles O33: register, `PC` and count by the laws of one sample, the rest by its frame. -/
theorem keyWaitTakesOneSample : Obligations.KeyWaitTakesOneSample := fun x s =>
  ⟨decode_encode (i := .ldVxK x) rfl, _, rfl, s.toNat_reg_keyWaitWith x _, s.keyWaitWith_pc x _,
    s.keyWaitWith_kwNo x _, (s.keyWaitWith_frame x _).mono fun _ => or_rotate.1⟩

/-- A fetched instruction that completes ends its step in the state it leaves. -/
theorem instrStep_of_exec {s t : State} {w : Word} (hw : s.fetchWord = some w)
    (h : exec (decode w) (s.fetched w) = .next t) (ht : t.fault = none) : instrStep s = .next t := by
  simp only [instrStep, hw, h, State.settleOutcome, State.settle_of_none ht]

/-- The pieces a fetched `FX0A` may write: those of the fetch, and those of one sample. -/
theorem State.fetched_keyWaitWith_frame (s : State) (w : Word) (x : Nibble) (k : Config.KeySample) :
    ChangesOnly (fun p => p = .reg x ∨ p = .pc ∨ p = .ir ∨ p = .slots ∨ p = .kwNo) s
      ((s.fetched w).keyWaitWith x k) :=
  ((s.fetched_frame w).mono (by simp)).trans (((s.fetched w).keyWaitWith_frame x k).mono (by simp))

/-- Settles O34: going back by 2 undoes the advance of the fetch, and the other pieces are in the frame of the fetch
and of the sample. -/
theorem keyWaitHoldsTheProgram : Obligations.KeyWaitHoldsTheProgram := by
  intro x w s hf hw hd
  have hframe := (s.fetched w).keyWaitWith_frame x (Config.keyWait s.kwNo)
  have hfault : ((s.fetched w).keyWaitWith x (Config.keyWait s.kwNo)).fault = none :=
    Eq.trans (hframe .fault (by simp)) hf
  refine ⟨_, instrStep_of_exec hw (by rw [hd]; rfl) hfault, hframe .ir (by simp), ?_,
    (s.fetched w).reg_keyWaitWith x _, s.fetched_keyWaitWith_frame w x _⟩
  rw [State.keyWaitWith_pc, State.fetched_pc, add_sub_cancel_right]

end Sys2Proof.Machine

/-! PROOFS. The statements of 45_engine.md: a step always answers a next state and its faults are precise, a run and
a tick are their slots, the trigger of a tick, and the invariant under the requests of the host. `instrStep_outcome`
says once what the step of one instruction leaves of an unfaulted machine. -/

namespace Sys2Proof.Machine

/-! ## The step of one instruction (R159, 60_exceptions.md R183) -/

/-- What the record of a fault in the step of one instruction says of the state the step began in: the address of
the instruction and the fetched word, or the old `IR` where the fetch itself faulted (R183). -/
def State.Records (s : State) (r : FaultRecord) : Prop :=
  r.pc = s.pc ∧ (r.cause = .fetchOutOfRange → s.fetchWord = none ∧ r.ir = s.ir)
    ∧ (r.cause ≠ .fetchOutOfRange → s.fetchWord = some r.ir)

/-- No instruction has the cause of a fetch fault: its record, made inside memory, would not be coherent. -/
theorem exec_fault_cause_ne_fetch {s t : State} {w : Word} {r : FaultRecord} (h : exec (decode w) s = .next t)
    (hs : s.fault = none) (hr : t.fault = some r) : r.cause ≠ .fetchOutOfRange := by
  obtain ⟨c, n, hraised, rfl⟩ := exec_fault h hs hr
  rintro rfl
  simpa [FaultRecord.coherent] using raisedBy_coherent (pc := 0) hraised (by decide)

/-- The step of one instruction from an unfaulted state always answers a next state: the instruction completes and
has used one slot, or the step changes nothing but to enter a fault that the record describes. -/
theorem instrStep_outcome {s : State} (hf : s.fault = none) :
    (∃ t, instrStep s = .next t ∧ t.fault = none ∧ t.slotsLeft = s.slotsLeft - 1)
      ∨ ∃ r, instrStep s = .next (s.enterFault r) ∧ s.Records r := by
  rcases instrStep_cases s with ⟨hw, hs⟩ | ⟨w, hw, hs⟩
  · exact .inr ⟨_, hs, rfl, fun _ => ⟨hw, rfl⟩, absurd rfl⟩
  · rcases exec_answer (decode w) (s.fetched w) with ⟨c, n, hexec, -⟩ | ⟨u, hexec, hframe⟩
    · have hcause : c ≠ .fetchOutOfRange := exec_fault_cause_ne_fetch hexec hf (State.raise_fault _ c n)
      exact .inr ⟨_, by rw [hs, hexec]; rfl, add_sub_cancel_right s.pc 2, (absurd · hcause), fun _ => hw⟩
    · have hfault : u.fault = none := Eq.trans (hframe .fault (by simp [Writes])) hf
      exact .inl ⟨u, instrStep_of_exec hw hexec hfault, hfault, hframe .slots (by simp [Writes])⟩

/-! ## The steps of a machine without a slot to run in -/

/-- A step of a faulted machine is an idle tick (log 1). -/
theorem step_of_some {s : State} {r : FaultRecord} (h : s.fault = some r) : step s = .next s.idleTick := by
  simp [step, runSlot, h]

/-- Where `IPT` is 0, a step is a tick that opens and ends (log 11). -/
theorem step_of_no_slot {s : State} (hf : s.fault = none) (hs : s.atSlot.slotsLeft = 0) :
    step s = .next s.atSlot := by
  simp [step, runSlot, hf, hs]

theorem State.idleTick_frame (s : State) : ChangesOnly (fun p => p = .audio) s s.idleTick := by
  intro p hp; cases p <;> simp_all [Part.Same]

/-- Settles O42: both the tick and the step are the idle tick. -/
theorem faultedMachineIgnoresTicks : Obligations.FaultedMachineIgnoresTicks := by
  intro s k hf
  obtain ⟨r, hr⟩ := Option.ne_none_iff_exists'.1 hf
  exact ⟨⟨_, tick_of_some k hr, rfl, s.idleTick_frame⟩, ⟨_, step_of_some hr, rfl, s.idleTick_frame⟩⟩

/-! ## Faults of a step (R160, R180, R183) -/

/-- Settles O37: such a step raises the fetch fault in the slot it opens. -/
theorem fetchBeyondMemoryFaults : Obligations.FetchBeyondMemoryFaults := by
  intro s hf hslot hpc
  exact ⟨_, step_of_fetchWord_none hf (State.atSlot_slotsLeft_ne_zero hslot) (State.fetchWord_of_gt hpc), by simp,
    rfl, s.atSlot.enterFault_frame _⟩

/-- Settles O38: a faulted machine idles, a tick of no slots opens and ends, and the step of one instruction answers
a next state whether it completes or faults. -/
theorem everyStepAnswersNext : Obligations.EveryStepAnswersNext := by
  intro s
  cases hf : s.fault with
  | some r => exact ⟨_, step_of_some hf⟩
  | none =>
    by_cases hs : s.atSlot.slotsLeft = 0
    · exact ⟨_, step_of_no_slot hf hs⟩
    · rw [step_of_slot hf hs]
      rcases instrStep_outcome (s.atSlot_fault.trans hf) with ⟨t, ht, -⟩ | ⟨r, hr, -⟩
      exacts [⟨t, ht⟩, ⟨_, hr⟩]

/-- Settles O39: of the answers of an unfaulted machine only an entered fault holds a record, and it changes the
record and the slots alone. -/
theorem faultsArePrecise : Obligations.FaultsArePrecise := by
  intro s t r hf h hr
  have hslot : s.atSlot.fault = none := s.atSlot_fault.trans hf
  by_cases hs : s.atSlot.slotsLeft = 0
  · obtain rfl := Host.Outcome.next.inj ((step_of_no_slot hf hs).symm.trans h)
    simp [hf] at hr
  · rw [step_of_slot hf hs] at h
    rcases instrStep_outcome hslot with ⟨u, hu, hfault, -⟩ | ⟨r', hr', hpc, hfetch, hword⟩
    · obtain rfl := Host.Outcome.next.inj (hu.symm.trans h)
      simp [hfault] at hr
    · obtain rfl := Host.Outcome.next.inj (hr'.symm.trans h)
      obtain rfl : r' = r := Option.some.inj hr
      rw [State.atSlot_fetchWord] at hfetch hword
      rw [State.atSlot_ir] at hfetch
      exact ⟨hpc.trans s.atSlot_pc, s.atSlot_pc, s.atSlot_ir, rfl, hfetch, hword, s.atSlot.enterFault_frame _⟩

/-! ## Runs of steps (R184) -/

/-- A fault is sticky: a step that ends unfaulted began unfaulted. -/
theorem fault_eq_none_of_step {s t : State} (h : step s = .next t) (ht : t.fault = none) : s.fault = none := by
  by_contra hf
  obtain ⟨r, hr⟩ := Option.ne_none_iff_exists'.1 hf
  obtain rfl := Host.Outcome.next.inj ((step_of_some hr).symm.trans h)
  exact hf ht

theorem SafeRun.fault_eq_none {k : Nat} {s : State} (h : SafeRun k s) : s.fault = none := by
  obtain ⟨t, ht, hf⟩ := h 0 k.zero_le
  obtain rfl := Host.Outcome.next.inj ht
  exact hf

/-- A step before a safe run makes a safe run. -/
theorem SafeRun.of_step {k : Nat} {s u : State} (h : step s = .next u) (hu : SafeRun k u) : SafeRun (k + 1) s := by
  intro j hj
  cases j with
  | zero => exact ⟨s, rfl, fault_eq_none_of_step h hu.fault_eq_none⟩
  | succ j => rw [core_run_succ h j]; exact hu j (Nat.le_of_succ_le_succ hj)

/-- Settles O44, by induction on the number of steps: the steps after the first are a safe run, and a fault before
the first would still stand after it. -/
theorem safeEndMeansSafeRun : Obligations.SafeEndMeansSafeRun := by
  intro k
  induction k with
  | zero => exact fun s t h ht j hj => ⟨t, Nat.le_zero.1 hj ▸ h, ht⟩
  | succ k ih =>
    intro s t h ht
    obtain ⟨u, hu⟩ := everyStepAnswersNext s
    exact .of_step hu (ih u t ((core_run_succ hu k).symm.trans h) ht)

/-! ## A tick as a run of its slots (R157, R162) -/

theorem runSlots_succ_of_none {s u : State} (n : Nat) (h : instrStep s = .next u) (hu : u.fault = none) :
    runSlots (n + 1) s = runSlots n u := by
  simp [runSlots, h, hu]

theorem runSlots_succ_of_some {s u : State} {r : FaultRecord} (n : Nat) (h : instrStep s = .next u)
    (hu : u.fault = some r) : runSlots (n + 1) s = .next u := by
  simp [runSlots, h, hu]

/-- What `o` answers is the state that at most `n` steps from `s` reach, exactly `n` where no fault ends it, and no
slot is left open. -/
def IsRunOfSlots (n : Nat) (s : State) (o : Host.Outcome State Fault Refusal) : Prop :=
  ∃ k t, k ≤ n ∧ o = .next t ∧ core.run k s = .next t ∧ (t.fault = none → k = n) ∧ t.slotsLeft = 0

theorem IsRunOfSlots.zero {s : State} (h : s.slotsLeft = 0) : IsRunOfSlots 0 s (.next s) :=
  ⟨0, s, le_rfl, rfl, rfl, fun _ => rfl, h⟩

theorem IsRunOfSlots.of_step {n : Nat} {s u : State} {o : Host.Outcome State Fault Refusal} (h : step s = .next u)
    (hu : IsRunOfSlots n u o) : IsRunOfSlots (n + 1) s o := by
  obtain ⟨k, t, hk, ho, hrun, hfull, hslots⟩ := hu
  exact ⟨k + 1, t, Nat.succ_le_succ hk, ho, (core_run_succ h k).trans hrun, fun ht => congrArg (· + 1) (hfull ht),
    hslots⟩

/-- A step that faults ends its tick, whatever slots were left. -/
theorem IsRunOfSlots.of_fault {n : Nat} {s u : State} {r : FaultRecord} (h : step s = .next (u.enterFault r)) :
    IsRunOfSlots (n + 1) s (.next (u.enterFault r)) :=
  ⟨1, _, Nat.le_add_left 1 n, rfl, core_run_succ h 0, nofun, rfl⟩

/-- The slots of a tick are a run of steps if, where the first one completes, the others are. -/
theorem IsRunOfSlots.first_slot {n : Nat} {s : State} (hf : s.fault = none) (hs : s.atSlot.slotsLeft = n + 1)
    (hrest : ∀ u : State, u.fault = none → u.slotsLeft = n → IsRunOfSlots n u (runSlots n u)) :
    IsRunOfSlots (n + 1) s (runSlots (n + 1) s.atSlot) := by
  have hstep : step s = instrStep s.atSlot := step_of_slot hf (by omega)
  rcases instrStep_outcome (s.atSlot_fault.trans hf) with ⟨u, hu, hfault, hslots⟩ | ⟨r, hr, -⟩
  · rw [runSlots_succ_of_none n hu hfault]
    exact .of_step (hstep.trans hu) (hrest u hfault (by omega))
  · rw [runSlots_succ_of_some n hr rfl]
    exact .of_fault (hstep.trans hr)

/-- Inside a tick the slots that are left are a run of steps. -/
theorem runSlots_isRunOfSlots (n : Nat) (s : State) (hf : s.fault = none) (hs : s.slotsLeft = n) :
    IsRunOfSlots n s (runSlots n s) := by
  induction n generalizing s with
  | zero => exact .zero hs
  | succ n ih =>
    have hslot : s.atSlot = s := State.atSlot_of_ne (by omega)
    have hrun : IsRunOfSlots (n + 1) s (runSlots (n + 1) s.atSlot) := .first_slot hf (by rwa [hslot]) ih
    rwa [hslot] at hrun

/-- Settles O45: at a tick boundary the first step opens the tick that the host's request opens; a tick of no slots
is that opening, and one with slots is their run. -/
theorem tickIsItsSlots : Obligations.TickIsItsSlots := by
  intro s hf h0
  have hopen : s.atSlot = s.openTick (Config.keysIn s.tickNo) := State.atSlot_of_eq h0
  have hslots : s.atSlot.slotsLeft = s.ipt := congrArg State.slotsLeft hopen
  suffices IsRunOfSlots (max 1 s.ipt) s (runSlots s.ipt s.atSlot) by
    rw [tick_of_none _ hf, ← hopen]; exact this
  cases hipt : s.ipt with
  | zero =>
    have hnone : s.atSlot.slotsLeft = 0 := hslots.trans hipt
    exact .of_step (step_of_no_slot hf hnone) (.zero hnone)
  | succ n =>
    rw [max_eq_right (Nat.le_add_left 1 n)]
    exact .first_slot hf (hslots.trans hipt) (runSlots_isRunOfSlots n)

/-! ## The audio trigger (R155) -/

/-- Settles O46: the head of the tick drives the trigger, by the law of one head, and no instruction writes it. -/
theorem triggerFollowsSoundTimer : Obligations.TriggerFollowsSoundTimer := by
  refine fun s k => ⟨fun hf => ?_, fun hf => ?_⟩
  · have hhead : (s.openTick k).audio = true ↔ 1 < s.st.toNat :=
      tickHeads_audio_iff (List.cons_ne_nil k []) s
    obtain ⟨t, ht, haudio⟩ := runSlots_same (p := .audio) rfl (by simp) s.ipt (s.openTick k)
    have haudio : t.audio = (s.openTick k).audio := haudio
    exact ⟨t, (tick_of_none k hf).trans ht, haudio ▸ hhead⟩
  · obtain ⟨r, hr⟩ := Option.ne_none_iff_exists'.1 hf
    exact ⟨_, tick_of_some k hr, rfl⟩

/-! ## The invariant under the requests of the host (R150, R157, R210 to R212) -/

theorem instrStep_inv {s t : State} (hf : s.fault = none) (h : instrStep s = .next t) (hs : s.Inv) : t.Inv := by
  rcases instrStep_cases s with ⟨hw, hi⟩ | ⟨w, hw, hi⟩ <;> rw [hi] at h
  · obtain rfl := Host.Outcome.next.inj h
    exact State.raiseFetch_inv hw hs
  · exact settleOutcome_exec_inv hw hf h hs

theorem runSlots_inv {n : Nat} {s t : State} (hf : s.fault = none) (h : runSlots n s = .next t) (hs : s.Inv) :
    t.Inv := by
  induction n generalizing s with
  | zero => obtain rfl := Host.Outcome.next.inj h; exact hs
  | succ n ih =>
    obtain ⟨u, hu, -⟩ := runSlots_succ_eq_next h
    have hinv : u.Inv := instrStep_inv hf hu hs
    cases hfault : u.fault with
    | none => exact ih hfault ((runSlots_succ_of_none n hu hfault).symm.trans h) hinv
    | some r =>
      obtain rfl := Host.Outcome.next.inj ((runSlots_succ_of_some n hu hfault).symm.trans h)
      exact hinv

theorem tick_inv {k : BitVec 16} {s t : State} (h : tick k s = .next t) (hs : s.Inv) : t.Inv := by
  cases hf : s.fault with
  | some r =>
    obtain rfl := Host.Outcome.next.inj ((tick_of_some k hf).symm.trans h)
    exact State.idleTick_inv hs
  | none => exact runSlots_inv (s := s.openTick k) hf ((tick_of_none k hf).symm.trans h) (State.openTick_inv k hf hs)

theorem State.resetEvent_inv {s : State} (hs : s.Inv) : s.resetEvent.Inv :=
  ⟨Memory.restoreFont_wf hs.1, s.ipt.zero_le, nofun⟩

/-- The bytes of a ROM that are copied fit between the program's start and the end of memory. -/
theorem progStart_add_take_le (rom : List Byte) :
    Config.progStart.toNat + (rom.take Config.progSize).length ≤ Config.memSize :=
  Nat.add_le_add_left (List.length_take_le ..) 512

theorem State.loadRom_inv {s : State} (rom : List Byte) (hs : s.Inv) : (s.loadRom rom).Inv := by
  obtain ⟨hmem, -, -⟩ := State.resetEvent_inv hs
  refine ⟨?_, by simp [State.loadRom], by simp⟩
  simpa [State.loadRom] using State.memWriteList_wf (s := s.resetEvent.setDisplay Display.clear) _ hmem
    (progStart_add_take_le rom)

/-- The power-on of a machine keeps the input counters (log 15), which the invariant does not speak of. -/
theorem State.powerOnEvent_inv (s : State) : s.powerOnEvent.Inv := State.powerOn_inv s.params

/-- Settles O54, one request at a time. -/
theorem hostEventsKeepTheInvariant : Obligations.HostEventsKeepTheInvariant := by
  intro e s t hs h
  cases e with
  | tick k => exact tick_inv h hs
  | powerOn => obtain rfl := Host.Outcome.next.inj h; exact s.powerOnEvent_inv
  | reset => obtain rfl := Host.Outcome.next.inj h; exact State.resetEvent_inv hs
  | loadRom rom => obtain rfl := Host.Outcome.next.inj h; exact State.loadRom_inv rom hs
  | disassemble lo hi => obtain rfl := Host.Outcome.next.inj h; exact hs

end Sys2Proof.Machine

/-! PROOFS. The statements of 46_disassembler.md: `State.getElem_walk` and `lt_walkLength_iff` say once which lines
the walk holds; the texts of two lines of one address differ as their mnemonics do. -/

namespace Sys2Proof.Machine

/-! ## The walk (R171) -/

@[simp] theorem State.length_walk (s : State) (names : Vector String 35) (n a : Nat) :
    (s.walk names n a).length = n := by
  induction n generalizing a with
  | zero => rfl
  | succ n ih => exact congrArg Nat.succ (ih (a + 2))

@[simp] theorem State.getElem_walk (s : State) (names : Vector String 35) {n a k : Nat}
    (h : k < (s.walk names n a).length) : (s.walk names n a)[k] = s.lineAt names (a + 2 * k) := by
  induction n generalizing a k with
  | zero => exact absurd h k.not_lt_zero
  | succ n ih =>
    cases k with
    | zero => rfl
    | succ k =>
      have haddr : a + 2 * (k + 1) = a + 2 + 2 * k := by omega
      rw [haddr]
      exact ih (Nat.lt_of_succ_lt_succ h)

/-- The walk has as many lines as there are addresses of its stride up to the bound. -/
theorem lt_walkLength_iff (lo hi k : Nat) : k < walkLength lo hi ↔ lo + 2 * k ≤ hi := by
  unfold walkLength
  split <;> omega

/-! ## The request (R172, R173) -/

theorem disassemble_of_gt (names : Vector String 35) (s : State) (lo : Word) {hi : Word} (h : 0x0FFE < hi.toNat) :
    disassemble names s lo hi = none := if_pos h

theorem disassemble_of_le (names : Vector String 35) (s : State) (lo : Word) {hi : Word} (h : hi.toNat ≤ 0x0FFE) :
    disassemble names s lo hi = some (s.walk names (walkLength lo.toNat hi.toNat) lo.toNat) :=
  if_neg (Nat.not_lt.2 h)

theorem State.lineAt_text (s : State) (names : Vector String 35) (a : Nat) :
    (s.lineAt names a).text
      = lineText names (s.lineAt names a).addr (tableIndex (decode (s.wordAt a))) := rfl

theorem State.toNat_lineAt_addr (s : State) (names : Vector String 35) {a : Nat} (h : a < 65536) :
    (s.lineAt names a).addr.toNat = a := Nat.mod_eq_of_lt h

/-- Settles O58: the lines are those of the walk, whose addresses do not wrap as they do not exceed `hi`. -/
theorem disassemblyWalksTheRange : Obligations.DisassemblyWalksTheRange := by
  intro names s lo hi
  refine ⟨rfl, disassemble_of_gt names s lo, fun hle => ⟨_, disassemble_of_le names s lo hle, fun k => ?_, ?_⟩⟩
  · rw [State.length_walk, lt_walkLength_iff]
  · intro k h
    have hk : lo.toNat + 2 * k ≤ hi.toNat := by rwa [State.length_walk, lt_walkLength_iff] at h
    rw [State.getElem_walk]
    exact ⟨s.toNat_lineAt_addr names (by omega), s.lineAt_text names _⟩

/-! ## The text of a line determines its table entry (R175) -/

/-- Every line of an accepted request is the line of the entry decoded from the word at its own address. -/
theorem text_of_mem_disassemble {names : Vector String 35} {s : State} {lo hi : Word} {ls : List Line}
    (hls : disassemble names s lo hi = some ls) {l : Line} (hl : l ∈ ls) :
    l.text = lineText names l.addr (tableIndex (decode (s.wordAt l.addr.toNat))) := by
  obtain ⟨-, hrefused, hlines⟩ := disassemblyWalksTheRange names s lo hi
  have hle : hi.toNat ≤ 0x0FFE := Nat.not_lt.1 fun hgt => nomatch (hrefused hgt).symm.trans hls
  obtain ⟨ls', hls', -, hline⟩ := hlines hle
  obtain rfl : ls' = ls := Option.some.inj (hls'.symm.trans hls)
  obtain ⟨k, hk, rfl⟩ := List.getElem_of_mem hl
  obtain ⟨haddr, htext⟩ := hline k hk
  rwa [haddr]

/-- Two lines of one address carry the same text just when their entries carry the same mnemonic. -/
theorem lineText_eq_iff (names : Vector String 35) (a : Word) (e f : Fin 35) :
    lineText names a e = lineText names a f ↔ names[e] = names[f] := by
  unfold lineText
  exact String.append_right_inj _

/-- The default strings are pairwise distinct (R72). -/
theorem mnemonics_injective : ∀ e f : Fin 35, Config.mnemonics[e] = Config.mnemonics[f] → e = f := by decide

/-- Settles O59: the text is the line of the decoded entry, and of no other entry, as the strings are distinct. -/
theorem disassemblyRoundTrip : Obligations.DisassemblyRoundTrip := by
  refine ⟨mnemonics_injective, fun names s lo hi ls hnames hls l hl e => ?_⟩
  rw [text_of_mem_disassemble hls hl]
  calc lineText names l.addr (tableIndex (decode (s.wordAt l.addr.toNat))) = lineText names l.addr e
      ↔ names[tableIndex (decode (s.wordAt l.addr.toNat))] = names[e] := lineText_eq_iff names l.addr _ e
    _ ↔ e = tableIndex (decode (s.wordAt l.addr.toNat)) := ⟨fun h => (hnames _ _ h).symm, fun h => by rw [h]⟩

end Sys2Proof.Machine

/-! PROOFS. The statements of 60_exceptions.md and 70_reset_and_hazards.md: `exec_fault_eq_raisedBy` says once that
the fault an instruction leaves is the one of its row of R181; `load_rom` is a reset and a sequence of bytes written,
and power-on lists no memory. -/

namespace Sys2Proof.Machine

/-! ## The faults of a step (R181) -/

/-- Where the table has a row, the instruction raises its fault. -/
theorem raises_of_raisedBy {i : Instr} {s : State} (h : raisedBy i s ≠ none) :
    ∃ c n, raisedBy i s = some (c.code, n) ∧ Raises i s c n := by
  cases i with
  | ret =>
    obtain ⟨hsp, -⟩ := ite_ne_right_iff.1 h
    obtain ⟨-, -, hraises⟩ := retPopsOrUnderflows s
    exact ⟨.stackUnderflow, 0, if_pos hsp, hraises hsp⟩
  | call nnn =>
    obtain ⟨hsp, -⟩ := ite_ne_right_iff.1 h
    obtain ⟨-, -, hraises⟩ := callPushesOrOverflows nnn s
    exact ⟨.stackOverflow, 0, if_pos hsp, hraises hsp⟩
  | drw x y n =>
    obtain ⟨⟨hn, hhigh⟩, -⟩ := ite_ne_right_iff.1 h
    exact ⟨.memOutOfRange, _, if_pos ⟨hn, hhigh⟩, .of_exec (exec_drw_of_not_fits x y hn hhigh)⟩
  | ldB | store | load =>
    obtain ⟨hhigh, -⟩ := ite_ne_right_iff.1 h
    exact ⟨.memOutOfRange, _, if_pos hhigh, .of_access rfl hhigh⟩
  | skp | sknp =>
    obtain ⟨hhigh, -⟩ := ite_ne_right_iff.1 h
    exact ⟨.keyIndexOutOfRange, _, if_pos hhigh, .of_decide rfl hhigh.not_ge⟩
  | _ => exact absurd rfl h

/-- The fault an instruction of an unfaulted machine leaves, if any, is the one the table gives: with no row it
completes, as every record it could leave has one. -/
theorem exec_fault_eq_raisedBy (i : Instr) {s : State} (hs : s.fault = none) :
    ∃ t, exec i s = .next t ∧ t.fault.map (fun r => (r.cause.code, r.info)) = raisedBy i s := by
  by_cases hrow : raisedBy i s = none
  · rcases exec_answer i s with ⟨c, n, hexec, -⟩ | ⟨t, hexec, hframe⟩
    · obtain ⟨_, _, hraised, -⟩ := exec_fault hexec hs (s.raise_fault c n)
      exact nomatch hrow.symm.trans hraised
    · have hfault : t.fault = none := Eq.trans (hframe .fault (by simp [Writes])) hs
      exact ⟨t, hexec, by rw [hfault, hrow, Option.map_none]⟩
  · obtain ⟨c, n, hraised, t, hexec, hfault, -⟩ := raises_of_raisedBy hrow
    exact ⟨t, hexec, by rw [hfault, hraised, Option.map_some]⟩

theorem State.fetchWord_eq_none_iff (s : State) : s.fetchWord = none ↔ 0x0FFE < s.pc.toNat := by
  refine ⟨fun hw => ?_, State.fetchWord_of_gt⟩
  by_contra hpc
  exact nomatch (State.fetchWord_of_le (Nat.not_lt.1 hpc)).symm.trans hw

/-- Settles O40: a step that fetches nothing raises the fetch fault; any other leaves the fault of its instruction,
which settling keeps. -/
theorem faultsAreThoseOfTheTable : Obligations.FaultsAreThoseOfTheTable := by
  refine ⟨⟨rfl, rfl, rfl, rfl, rfl⟩, fun s hf => ?_⟩
  rcases instrStep_cases s with ⟨hw, hs⟩ | ⟨w, hw, hs⟩
  · exact ⟨_, hs, s.fetchWord_eq_none_iff, fun _ => rfl, fun _ hw' => nomatch hw.symm.trans hw'⟩
  · obtain ⟨t, hexec, hfault⟩ := exec_fault_eq_raisedBy (decode w) (s := s.fetched w) hf
    refine ⟨s.settle t, by rw [hs, hexec]; rfl, s.fetchWord_eq_none_iff, fun hw' => (nomatch hw.symm.trans hw'), ?_⟩
    intro w' hw'
    obtain rfl := Option.some.inj (hw.symm.trans hw')
    rw [State.settle_fault, hfault]

/-! ## Loading a program (R212) -/

/-- After `reset`, whose display is clear, `load_rom` is the writing of the bytes that fit from 0x200 on. -/
theorem State.loadRom_eq_memWriteList (s : State) (rom : List Byte) :
    s.loadRom rom = s.resetEvent.memWriteList 0x200 (rom.take 3584) := rfl

/-- Settles O57: the bytes and the frame of a sequence written from 0x200 on. -/
theorem loadRomCopiesAndTruncates : Obligations.LoadRomCopiesAndTruncates := by
  refine fun s rom => ⟨_, s.resetEvent, congrArg Host.Outcome.next (s.loadRom_eq_memWriteList rom), rfl,
    fun j h hj => ?_, ?_⟩
  · exact State.memRead_memWriteList_add _ _ (by rw [List.getElem?_take_of_lt hj, List.getElem?_eq_getElem h])
  · refine (s.resetEvent.memWriteList_frame 0x200 (rom.take 3584)).mono ?_
    rintro _ ⟨a, rfl, hlow, hhigh⟩
    rw [List.length_take] at hhigh
    exact ⟨a - 0x200, by omega, by rw [Nat.add_sub_cancel' hlow]⟩

/-! ## Power-on (R210) -/

/-- After power-on memory lists nothing: every byte is the font's or 0. -/
theorem State.memRead_powerOnEvent (s : State) (a : Nat) :
    s.powerOnEvent.memRead a = Memory.unlisted s.font a := rfl

/-- Power-on empties the stack and keeps its depth, as a reset does (R211). -/
theorem State.powerOnEvent_stack (s : State) : s.powerOnEvent.stack = s.resetEvent.stack := rfl

/-- Settles O55: the registers, the stack and the display by the laws of a reset, memory by that of power-on. -/
theorem powerOnValues : Obligations.PowerOnValues := by
  intro s
  have hentries : ∀ a ∈ s.powerOnEvent.stack.entries, a = 0 := by simp [State.powerOnEvent_stack]
  have hfont (a : Nat) (h : a < 80) : s.powerOnEvent.memRead a = s.font[a] :=
    (s.memRead_powerOnEvent a).trans (Memory.unlisted_font _ h)
  have hrest (a : Nat) (h : 80 ≤ a) : s.powerOnEvent.memRead a = 0 :=
    (s.memRead_powerOnEvent a).trans (Memory.unlisted_zero _ h)
  exact ⟨s.powerOnEvent, rfl, s.reg_resetEvent, rfl, rfl, rfl, hentries, CallStack.depth_fresh _, rfl, rfl, rfl, rfl,
    rfl, Display.pixel_clear, hfont, hrest⟩

end Sys2Proof.Machine
